-- ==== Sys2Proof/Word.lean ====
section
/-! DEFINITION. The value types of the block (00_scope.md R9, R11): bytes, 16-bit words, and the
presence of a buffer operand that carries no bytes of its own. -/

namespace Sys2Proof

/-- "A byte is an unsigned integer 0 to 255, 8 bits" (R9). -/
abbrev Byte := BitVec 8

/-- A 16-bit value: the CRC register (R14), the Length field and the CRC field of a frame (R47). -/
abbrev Word := BitVec 16

/-- A buffer operand "is either `ABSENT` (the source's "null/absent") or present" (R11). This type is
used where the operand brings no bytes: the output of `FRAME` and `EXTRACT`, the buffer of `NEW`. An
input operand is an `Option (List Byte)`, `none` being ABSENT. DEDUCED, notes/assumptions/10.md. -/
inductive Presence where
  | absent
  | present
  deriving DecidableEq, Repr

end Sys2Proof
end

