-- ==== Sys2Proof/Config.lean ====
section
/-! DEFINITION. The constants of the block: those the source fixes (00_scope.md R7) and the numbers
the spec chooses for command and status bytes (30_encoding.md R55, R58). There is no free value here:
the spec leaves no result of a command open. The widths it leaves open (R8) are parameters of claims,
`Config.Widths` below, since the model computes over the naturals (R9, 92_eei_decisions.md D9, D10,
D23). -/

namespace Sys2Proof.Config

/-! ### R7: constants the source fixes -/

def magic1 : Byte := 0xAA#8
def magic2 : Byte := 0x55#8
/-- Bytes before the payload: Magic1, Magic2, Length (2). -/
def headerSize : Nat := 4
/-- Bytes after the payload. -/
def crcSize : Nat := 2
def maxPayload : Nat := 65535
def crcPoly : Word := 0x1021#16
def crcInit : Word := 0xFFFF#16
/-- The smallest buffer capacity `NEW` accepts. -/
def minCapacity : Nat := 256
/-- `EXTRACT` compacts on entry when the cursor has reached this index. -/
def compactThreshold : Nat := 1024

/-! ### R55: the command bytes (the spec's own numbers, D2) -/

def opCrc16 : Byte := 0x01#8
def opFrame : Byte := 0x02#8
def opNew : Byte := 0x10#8
def opAddData : Byte := 0x11#8
def opExtract : Byte := 0x12#8
def opReset : Byte := 0x13#8
def opUsage : Byte := 0x14#8
def opStats : Byte := 0x15#8

/-- R8: the widths the source leaves to an implementation. The model has none of them; a claim about
an implementation with finite widths takes a `Widths` as an argument (`Instance.fitsWidths`,
`operandFits`). DESIGN
CHOICE, notes/assumptions/8.md. -/
structure Widths where
  /-- `IDX_W`: width of `data_len`, `offset` and lengths. -/
  idxW : Nat
  /-- `CTR_W`: width of the three counters. -/
  ctrW : Nat
  /-- `CAP_MAX`: the largest capacity, `none` when unbounded (the default). -/
  capMax : Option Nat
  deriving DecidableEq, Repr

end Sys2Proof.Config
end

