-- ==== Sys2Proof/Machine/Bytes.lean ====
section
/-! DEFINITION. Byte order of the two 16-bit fields of a frame: big-endian, always (00_scope.md R9,
20_memory.md R32, 30_encoding.md R49, R50). -/

namespace Sys2Proof

/-- `hi8(v) = v[15:8]` (R9). -/
def hi8 (v : Word) : Byte := v.extractLsb' 8 8

/-- `lo8(v) = v[7:0]` (R9). -/
def lo8 (v : Word) : Byte := v.extractLsb' 0 8

/-- `be16(h, l)` is the 16-bit value `h × 256 + l` (R9). -/
def be16 (h l : Byte) : Word := BitVec.ofNat 16 (h.toNat * 256 + l.toNat)

/-- The two bytes of a 16-bit field in wire order, high byte first (R32). -/
def be16Bytes (v : Word) : List Byte := [hi8 v, lo8 v]

/-- "total frame size = 4 + Length + 2", over the naturals (R51). -/
def totalSize (length : Nat) : Nat := Config.headerSize + length + Config.crcSize

/-- The bytes of a frame in wire order, index 0 first (R47, R48). -/
def frameBytes (length : Word) (payload : List Byte) (crc : Word) : List Byte :=
  [Config.magic1, Config.magic2] ++ be16Bytes length ++ payload ++ be16Bytes crc

end Sys2Proof
end

