-- ==== Sys2Proof/Syntax.lean ====
section
/-! DEFINITION. The instructions: one constructor per row of spec/opcode_table.json. An instruction is
one command record `(op, operands)` (00_scope.md R6, R11; 30_encoding.md R55, R56), or, for the row
`WIRE_FRAME`, one frame as it stands on the wire (30_encoding.md R47). The two internal operations
`CRC_BYTE` and `COMPACT` have no `op` and no row (R55): they are `Machine.crcByte` and
`Machine.compact`. -/

namespace Sys2Proof

inductive Instr where
  /-- `CRC16 data` (R68). -/
  | crc16 (data : List Byte)
  /-- `FRAME payload payload_len output output_capacity` (R74); `none` is an ABSENT payload. -/
  | frame (payload : Option (List Byte)) (payloadLen : Nat) (output : Presence) (outputCapacity : Nat)
  /-- `NEW buffer capacity` (R83). -/
  | new (buffer : Presence) (capacity : Nat)
  /-- `ADD_DATA data len` (R88); `none` is an ABSENT data operand. -/
  | addData (data : Option (List Byte)) (len : Nat)
  /-- `EXTRACT output output_capacity` (R99). -/
  | extract (output : Presence) (outputCapacity : Nat)
  /-- `RESET` (R92). -/
  | reset
  /-- `USAGE` (R94). -/
  | usage
  /-- `STATS` (R95). -/
  | stats
  /-- A frame on the wire, `AA 55 <length> <payload> <crc>` (R47), as it reaches the block. The CRC
  field is whatever two bytes arrived: a damaged frame has the format too. -/
  | wireFrame (length : Word) (payload : List Byte) (crc : Word)
  deriving DecidableEq, Repr

end Sys2Proof
end

