-- ==== Sys2Proof/WellFormed.lean ====
section
/-! DEFINITION. Which instruction terms are command records of the spec (30_encoding.md R56): "When an
input operand is present, the byte sequence has exactly the stated length"; and which are frames of
the wire format (R47): the payload has Length bytes. -/

namespace Sys2Proof

/-- R56: a present input operand has exactly the stated length; an ABSENT one has no bytes "and the
length operand stands alone". -/
def inputLengthOk (data : Option (List Byte)) (len : Nat) : Bool :=
  match data with
  | some d => d.length == len
  | none => true

/-- The instruction is one the block can be handed (R56), or a frame of the format of R47. -/
def Instr.wf : Instr → Bool
  | .crc16 _ => true
  | .frame payload payloadLen _ _ => inputLengthOk payload payloadLen
  | .new _ _ => true
  | .addData data len => inputLengthOk data len
  | .extract _ _ => true
  | .reset => true
  | .usage => true
  | .stats => true
  | .wireFrame length payload _ => payload.length == length.toNat

end Sys2Proof
end

