-- ==== Sys2Proof/Decode.lean ====
section
/-! DEFINITION. What stands at the block's port, and its decoding.

The spec numbers the command byte (30_encoding.md R55) and the bytes of a wire frame (R47). It gives
the operands of a command as values, with no encoding ("A command is a record `(op, operands)`", R11;
"any bijection would do", 92_eei_decisions.md D2). The port of this model carries bytes, so the
operands need an image in bytes. That image is the model's own: DESIGN CHOICE, notes/assumptions/1.md.

* a natural: base-128 digits, least significant first, bit 7 of a byte set when more digits follow,
  no needless last zero digit;
* presence of a buffer operand: one byte, 0 ABSENT, 1 present;
* an input operand with its length (R56): presence, length, then the bytes when present;
* `CRC16` data, which "cannot be ABSENT" (R68): length, then the bytes. -/

namespace Sys2Proof

/-- One thing handed to the block from outside. The two formats of spec/opcode_table.json are kept
apart: the byte 0xAA is a reserved `op` (R57) and the first byte of every frame (R47), and "no byte of
the wire is ever interpreted as a command" (20_memory.md R45). -/
inductive Request where
  /-- A command of the owner: the `op` byte, then the operands' image. -/
  | command (bytes : List Byte)
  /-- A chunk of received bytes that the transport delivers (00_scope.md R5 (b), R2). -/
  | wire (bytes : List Byte)
  deriving DecidableEq, Repr

/-- Why a request is not an instruction. -/
inductive Reject where
  /-- A command with no `op` byte: no record of R11. -/
  | noOp
  /-- An `op` outside the table of R55 (R57). -/
  | reservedOp (op : Byte)
  /-- The operand image ends before the operands do. -/
  | truncatedOperand
  /-- A natural written with a needless last zero digit. -/
  | nonMinimalNatural
  /-- A presence byte other than 0 and 1. -/
  | badPresence (b : Byte)
  /-- Bytes after the last operand. -/
  | trailingBytes
  /-- Received bytes that are not one frame of the format of R47. -/
  | notAFrame
  deriving DecidableEq, Repr

/-! ### Operands -/

/-- A natural and what follows it. -/
def takeNat : List Byte → Except Reject (Nat × List Byte)
  | [] => .error .truncatedOperand
  | b :: rest =>
    if b.toNat < 128 then .ok (b.toNat, rest)
    else
      match takeNat rest with
      | .error e => .error e
      | .ok (hi, rest') =>
        if hi = 0 then .error .nonMinimalNatural else .ok (b.toNat - 128 + 128 * hi, rest')

/-- Whether a buffer operand is present, and what follows. -/
def takePresence : List Byte → Except Reject (Presence × List Byte)
  | [] => .error .truncatedOperand
  | b :: rest =>
    if b = 0#8 then .ok (.absent, rest)
    else if b = 1#8 then .ok (.present, rest)
    else .error (.badPresence b)

/-- `n` bytes and what follows them. -/
def takeBytes (n : Nat) (bytes : List Byte) : Except Reject (List Byte × List Byte) :=
  if bytes.length < n then .error .truncatedOperand else .ok (bytes.take n, bytes.drop n)

/-- An input operand with its length operand (R56), and what follows them. -/
def takeInput (bytes : List Byte) : Except Reject ((Option (List Byte) × Nat) × List Byte) := do
  let (p, r1) ← takePresence bytes
  let (n, r2) ← takeNat r1
  match p with
  | .absent => .ok ((none, n), r2)
  | .present => do
    let (d, r3) ← takeBytes n r2
    .ok ((some d, n), r3)

/-- A buffer operand without bytes, with the natural beside it: the output of `FRAME` and `EXTRACT`
with its capacity, the buffer of `NEW` with its capacity (R55). -/
def takeRegion (bytes : List Byte) : Except Reject ((Presence × Nat) × List Byte) := do
  let (p, r1) ← takePresence bytes
  let (n, r2) ← takeNat r1
  .ok ((p, n), r2)

/-- The whole image has been read. -/
def endOfImage (i : Instr) (rest : List Byte) : Except Reject Instr :=
  if rest = [] then .ok i else .error .trailingBytes

/-! ### Commands (R55) and frames (R47) -/

def decodeCrc16 (r : List Byte) : Except Reject Instr := do
  let (n, r1) ← takeNat r
  let (d, r2) ← takeBytes n r1
  endOfImage (.crc16 d) r2

def decodeFrame (r : List Byte) : Except Reject Instr := do
  let ((payload, n), r1) ← takeInput r
  let ((output, cap), r2) ← takeRegion r1
  endOfImage (.frame payload n output cap) r2

def decodeNew (r : List Byte) : Except Reject Instr := do
  let ((buffer, cap), r1) ← takeRegion r
  endOfImage (.new buffer cap) r1

def decodeAddData (r : List Byte) : Except Reject Instr := do
  let ((data, n), r1) ← takeInput r
  endOfImage (.addData data n) r1

def decodeExtract (r : List Byte) : Except Reject Instr := do
  let ((output, cap), r1) ← takeRegion r
  endOfImage (.extract output cap) r1

/-- The `op` byte selects the command (R55); every other `op` is reserved (R57). -/
def decodeCommand : List Byte → Except Reject Instr
  | [] => .error .noOp
  | op :: r =>
    if op = Config.opCrc16 then decodeCrc16 r
    else if op = Config.opFrame then decodeFrame r
    else if op = Config.opNew then decodeNew r
    else if op = Config.opAddData then decodeAddData r
    else if op = Config.opExtract then decodeExtract r
    else if op = Config.opReset then endOfImage .reset r
    else if op = Config.opUsage then endOfImage .usage r
    else if op = Config.opStats then endOfImage .stats r
    else .error (.reservedOp op)

/-- Exactly one frame: the magic bytes, Length, Length payload bytes, the CRC, nothing more (R47,
R49, R50). The header test is `header & 0xFFFF0000 = 0xAA550000`. -/
def decodeWire : List Byte → Except Reject Instr
  | m1 :: m2 :: h :: l :: rest =>
    if m1 = Config.magic1 ∧ m2 = Config.magic2 then
      match rest.drop (be16 h l).toNat with
      | [ch, cl] => .ok (.wireFrame (be16 h l) (rest.take (be16 h l).toNat) (be16 ch cl))
      | _ => .error .notAFrame
    else .error .notAFrame
  | _ => .error .notAFrame

/-- The decoder, total on any bytes. -/
def decode : Request → Except Reject Instr
  | .command bytes => decodeCommand bytes
  | .wire bytes => decodeWire bytes

/-! ### The encoder -/

/-- Base-128 digits of `n`, least significant first; `fuel = n` is always enough. -/
def encodeNatFuel : Nat → Nat → List Byte
  | 0, n => [BitVec.ofNat 8 n]
  | fuel + 1, n =>
    if n < 128 then [BitVec.ofNat 8 n]
    else BitVec.ofNat 8 (128 + n % 128) :: encodeNatFuel fuel (n / 128)

def encodeNat (n : Nat) : List Byte := encodeNatFuel n n

def encodePresence : Presence → Byte
  | .absent => 0#8
  | .present => 1#8

def encodeInput (data : Option (List Byte)) (len : Nat) : List Byte :=
  match data with
  | none => encodePresence .absent :: encodeNat len
  | some d => encodePresence .present :: (encodeNat len ++ d)

def encodeRegion (p : Presence) (n : Nat) : List Byte := encodePresence p :: encodeNat n

/-- The request that stands for an instruction: for a command the `op` byte of R55 and the operands'
image, for a wire frame its bytes in wire order (R47, R48). -/
def encode : Instr → Request
  | .crc16 data => .command (Config.opCrc16 :: (encodeNat data.length ++ data))
  | .frame payload n output cap =>
    .command (Config.opFrame :: (encodeInput payload n ++ encodeRegion output cap))
  | .new buffer cap => .command (Config.opNew :: encodeRegion buffer cap)
  | .addData data n => .command (Config.opAddData :: encodeInput data n)
  | .extract output cap => .command (Config.opExtract :: encodeRegion output cap)
  | .reset => .command [Config.opReset]
  | .usage => .command [Config.opUsage]
  | .stats => .command [Config.opStats]
  | .wireFrame length payload crc => .wire (frameBytes length payload crc)

/-! ### The words of spec/opcode_table.json -/

/-- How many zero bytes the operand image of a command has when every operand is zero or ABSENT. -/
def operandZeros (op : Byte) : Nat :=
  if op = Config.opCrc16 then 1
  else if op = Config.opFrame then 4
  else if op = Config.opNew then 2
  else if op = Config.opAddData then 2
  else if op = Config.opExtract then 2
  else 0

/-- The request whose table bits are `w` and whose further bits are zero. A row of 8 bits is a command
byte (R55). A row of more is the 32-bit header word of a frame, "first byte most significant" (R47),
with a payload of Length zero bytes and a zero CRC field. -/
def tableRequest (nbits w : Nat) : Request :=
  if nbits ≤ 8 then
    .command (BitVec.ofNat 8 w :: List.replicate (operandZeros (BitVec.ofNat 8 w)) 0#8)
  else
    .wire ([BitVec.ofNat 8 (w / 16777216), BitVec.ofNat 8 (w / 65536), BitVec.ofNat 8 (w / 256),
      BitVec.ofNat 8 w] ++ List.replicate (w % 65536 + Config.crcSize) 0#8)

/-- The instruction the decoder reads from a table word, `none` where it refuses. -/
def decodeTableWord (nbits w : Nat) : Option Instr :=
  match decode (tableRequest nbits w) with
  | .ok i => some i
  | .error _ => none

end Sys2Proof
end

