-- ==== Sys2Proof/Machine/State.lean ====
section
/-! DEFINITION. The state of the block as plain data: one reconstructor (10_state.md R13), and beside
it the port through which commands come and results go (00_scope.md R11). -/

namespace Sys2Proof.Machine

/-- The status of a result (30_encoding.md R58). The last two names complete the taxonomy of §7 and
are never returned (R128, R129). -/
inductive Status where
  | ok
  | invalidArgument
  | payloadTooLarge
  | outputTooSmall
  | bufferFull
  | frameSyncError
  | crcMismatch
  deriving DecidableEq, Repr

/-- The `value` of a result: a natural, or for `STATS` "the three counters in the order
`(packets_received, crc_errors, frame_errors)`" (R59). -/
inductive Value where
  | num (n : Nat)
  | counters (packetsReceived crcErrors frameErrors : Nat)
  deriving DecidableEq, Repr

/-- The result record `(status, value, emit, out)` (00_scope.md R11, 30_encoding.md R59). -/
structure Result where
  status : Status
  value : Value
  emit : Bool
  out : List Byte
  deriving DecidableEq, Repr

/-- Contents of the buffer: (index, byte) pairs, indices strictly rising. A cell that nothing has
written since `NEW` is not listed and has NO value, since "`NEW` does not clear the caller-supplied
buffer" and the spec leaves its bytes unspecified (10_state.md R23, R27; 93 U3). DESIGN CHOICE,
notes/assumptions/4.md. -/
abbrev Memory := List Host.Cell

/-- "The table below is the whole state of one instance; a model's state type has these fields and no
others" (10_state.md R13). -/
structure Instance where
  /-- 1 when a `NEW` has succeeded (R18). -/
  constructed : Bool
  /-- Size of the buffer, fixed by `NEW` (R17). -/
  capacity : Nat
  /-- `BUF[0 .. capacity-1]` (R22, R31). -/
  buf : Memory
  /-- "bytes currently held" (R15). -/
  dataLen : Nat
  /-- "parse cursor, the next unexamined byte" (R16). -/
  offset : Nat
  /-- Counts emits (R19, R109). -/
  packetsReceived : Nat
  /-- Counts CRC mismatches (R19, R108). -/
  crcErrors : Nat
  /-- Counts magic, Length and output-size failures (R19, R104, R105, R107). -/
  frameErrors : Nat
  deriving DecidableEq, Repr

/-- The instance, and the model's own two fields for the interface of R11: the commands and received
chunks handed to the block and not yet taken, oldest first (R42), and the result the latest command
handed back. No rule reads `result`: a result is "kept nowhere" in the block (R24). DESIGN CHOICE,
notes/assumptions/7.md. -/
structure State where
  inst : Instance
  pending : List Request
  result : Option Result
  deriving DecidableEq, Repr

/-- Why the machine stops. No command stops it from a state a run can reach (20_memory.md R38): both
faults are here so that a breach of R38 would show. -/
inductive Fault where
  /-- Raised by a buffer access at an index not below `capacity`, which "names" no cell (R31).
  Safe: the machine stops. -/
  | indexOutOfRange (index : Nat)
  /-- Raised by a read of a cell nothing has written since `NEW`, whose byte the spec leaves
  unspecified and says no rule reads (R23, 93 U3). Safe: the machine stops. -/
  | cellUnwritten (index : Nat)
  deriving DecidableEq, Repr

/-- Why the machine gives a request no meaning. -/
inductive Refusal where
  /-- Raised by `exec` for an instruction that has no meaning yet. Safe. No arm uses it. -/
  | notModelled (mnemonic : String)
  /-- Raised by `step` for bytes at the command port that are no record `(op, operands)` of R11.
  Safe: the spec says nothing of such bytes. -/
  | notACommand (reason : Reject)
  deriving DecidableEq, Repr

/-- Power-on (70_reset_and_hazards.md R143): `constructed = 0`. The spec leaves every other element
"unspecified and unread"; the zeros are a DESIGN CHOICE, notes/assumptions/3.md. -/
def Instance.powerOn : Instance where
  constructed := false
  capacity := 0
  buf := []
  dataLen := 0
  offset := 0
  packetsReceived := 0
  crcErrors := 0
  frameErrors := 0

/-- The machine right after power-on, with nothing at the port and no result handed back. -/
def State.reset : State where
  inst := .powerOn
  pending := []
  result := none

end Sys2Proof.Machine
end

