-- ==== Sys2Proof/Machine/Flags.lean ====
section
/-! DEFINITION. "The block has no persistent flag or condition code. Every command reports through its
result record" (10_state.md R24): the results a command can hand back, the status byte, and the three
event counters. -/

namespace Sys2Proof.Machine

/-- The status byte (30_encoding.md R58). -/
def Status.code : Status → Byte
  | .ok => 0x00#8
  | .invalidArgument => 0x01#8
  | .payloadTooLarge => 0x02#8
  | .outputTooSmall => 0x03#8
  | .bufferFull => 0x04#8
  | .frameSyncError => 0x05#8
  | .crcMismatch => 0x06#8

/-- `return OK(v)`: status `OK`, `emit = 0`, no output (00_scope.md R10, R59). -/
def Result.okValue (v : Value) : Result where
  status := .ok
  value := v
  emit := false
  out := []

/-- "need more data": the result `OK` with `value = 0` and `emit = 0` (00_scope.md R12). -/
def Result.needMoreData : Result := .okValue (.num 0)

/-- `FRAME` on success: the bytes written and their number; `emit` is "0 elsewhere" than in `EXTRACT`
(R11, R59). -/
def Result.written (bytes : List Byte) : Result where
  status := .ok
  value := .num bytes.length
  emit := false
  out := bytes

/-- The emit of `EXTRACT`: "`emit` is 1 exactly when the command executed R109" (R24). -/
def Result.emitted (payload : List Byte) : Result where
  status := .ok
  value := .num payload.length
  emit := true
  out := payload

/-- What a non-`OK` result carries: "the status byte and nothing else" (60_exceptions.md R130). -/
def Result.failed (status : Status) : Result where
  status := status
  value := .num 0
  emit := false
  out := []

/-- `packets_received <- packets_received + 1` (R109). -/
def Instance.countPacket (n : Instance) : Instance :=
  { n with packetsReceived := n.packetsReceived + 1 }

/-- `crc_errors <- crc_errors + 1` (R108). -/
def Instance.countCrcError (n : Instance) : Instance :=
  { n with crcErrors := n.crcErrors + 1 }

/-- `frame_errors <- frame_errors + 1` (R104, R105, R107). -/
def Instance.countFrameError (n : Instance) : Instance :=
  { n with frameErrors := n.frameErrors + 1 }

end Sys2Proof.Machine
end

