-- ==== Sys2Proof/Machine/Operands.lean ====
section
/-! DEFINITION. Operands of commands and effective addresses (00_scope.md R11; 20_memory.md R39).
"No command takes a buffer index as an operand: every access is at an index computed from `offset` and
`data_len`" (10_state.md R22). -/

namespace Sys2Proof.Machine

/-! ### Operands -/

/-- The bytes of an input operand, `data[0 .. len)`; none when it is ABSENT (30_encoding.md R56). -/
def inputBytes (data : Option (List Byte)) (len : Nat) : List Byte :=
  match data with
  | none => []
  | some d => d.take len

/-! ### Effective addresses of `EXTRACT`, all cursor-relative (R39) -/

def Instance.magic1Addr (n : Instance) : Nat := n.offset
def Instance.magic2Addr (n : Instance) : Nat := n.offset + 1
def Instance.lengthAddr (n : Instance) : Nat := n.offset + 2
def Instance.payloadAddr (n : Instance) : Nat := n.offset + 4
def Instance.crcAddr (n : Instance) (length : Nat) : Nat := n.offset + 4 + length

/-! ### The regions of the buffer -/

/-- "Usage: `data_len - offset`, the number of live bytes" (R12). -/
def Instance.usage (n : Instance) : Nat := n.dataLen - n.offset

end Sys2Proof.Machine
end

