-- ==== Sys2Proof/Machine/Ops.lean ====
section
/-! DEFINITION. The operations the meanings share: buffer access (20_memory.md R31, R35), the
primitives of 00_scope.md R10, `COMPACT` (42_reconstructor_buffer.md R86), the append of R88 to R90,
raising an error status (R10, 60_exceptions.md R133), and handing a result back (R11). -/

namespace Sys2Proof.Machine

/-! ### Buffer contents as a list in one form -/

/-- Indices strictly rising. An unlisted cell has no value, so no entry can be redundant. -/
abbrev Memory.wf (m : Memory) : Prop := m.Pairwise (fun a b => a.1 < b.1)

/-- The byte of a cell, `none` where nothing has been written. -/
def Memory.read? : Memory → Nat → Option Byte
  | [], _ => none
  | (j, b) :: m, i => if j = i then some b else Memory.read? m i

/-- Store a byte at its place in the order. -/
def Memory.write : Memory → Nat → Byte → Memory
  | [], i, v => [(i, v)]
  | (j, b) :: m, i, v =>
    if i < j then (i, v) :: (j, b) :: m
    else if i = j then (i, v) :: m
    else (j, b) :: Memory.write m i v

/-! ### Access to `BUF` -/

/-- `BUF[i]`; needs `0 ≤ i < capacity` (R10, R31). -/
def Instance.readByte (n : Instance) (i : Nat) : Except Fault Byte :=
  if i < n.capacity then
    match n.buf.read? i with
    | some b => .ok b
    | none => .error (.cellUnwritten i)
  else .error (.indexOutOfRange i)

/-- `BUF[i] <- v`; needs `0 ≤ i < capacity` (R10, R31). -/
def Instance.writeByte (n : Instance) (i : Nat) (v : Byte) : Except Fault Instance :=
  if i < n.capacity then .ok { n with buf := n.buf.write i v }
  else .error (.indexOutOfRange i)

/-- `MemBytes(addr, n)`: the bytes `BUF[addr] .. BUF[addr+n-1]` (R10). -/
def Instance.memBytes (n : Instance) : Nat → Nat → Except Fault (List Byte)
  | _, 0 => .ok []
  | addr, count + 1 => do
    let b ← n.readByte addr
    let bs ← n.memBytes (addr + 1) count
    .ok (b :: bs)

/-- `MemRead(addr, 2) = be16(BUF[addr], BUF[addr+1])`: two one-byte accesses (R10, R32). -/
def Instance.memRead16 (n : Instance) (addr : Nat) : Except Fault Word := do
  let h ← n.readByte addr
  let l ← n.readByte (addr + 1)
  .ok (be16 h l)

/-- `MemWrite(addr, n, v)` of a byte sequence, first byte first (R10). -/
def Instance.writeBytes (n : Instance) : Nat → List Byte → Except Fault Instance
  | _, [] => .ok n
  | addr, b :: bs => do
    let n' ← n.writeByte addr b
    n'.writeBytes (addr + 1) bs

/-- `LIVE = MemBytes(offset, data_len - offset)`, the unconsumed bytes in stream order (R21). -/
def Instance.live (n : Instance) : Except Fault (List Byte) := n.memBytes n.offset n.usage

/-! ### `COMPACT` (R86) -/

/-- `for k ascending: BUF[k] <- BUF[src + k]`, `count` times from `k` on. The bytes are moved one at a
time, so that the move is overlap-safe only because `k` ascends (R39). -/
def Instance.moveDown (n : Instance) (src : Nat) : Nat → Nat → Except Fault Instance
  | 0, _ => .ok n
  | count + 1, k => do
    let b ← n.readByte (src + k)
    let n' ← n.writeByte k b
    n'.moveDown src count (k + 1)

/-- `COMPACT()` (R86): the live bytes go to index 0 and the cursor with them; nothing when
`offset = 0`. -/
def Instance.compact (n : Instance) : Except Fault Instance :=
  if n.offset > 0 then do
    let n' ← n.moveDown n.offset n.usage 0
    .ok { n' with dataLen := n.usage, offset := 0 }
  else .ok n

/-! ### Results -/

/-- What a command leaves: the instance and the result record. -/
abbrev Response := Instance × Result

/-- `return OK(v)` (R10). -/
def ret (n : Instance) (v : Value) : Except Fault Response := .ok (n, .okValue v)

/-- `raise <Status>` (R10, R133): the command ends at once with that status, `value = 0`, `emit = 0`,
no output. It "saves nothing and transfers control nowhere", and no error is sticky: there is no
return from it to model (R134). The instance is the one the rule had made before the `raise`. -/
def raise (n : Instance) (st : Status) : Except Fault Response := .ok (n, .failed st)

/-- The result goes back to the owner (R11, R133); a fault of a buffer access stops the machine. -/
def respond (s : State) : Except Fault Response → Host.Outcome State Fault Refusal
  | .ok (n, r) => .next { s with inst := n, result := some r }
  | .error f => .fault f

/-! ### Appending received bytes (R88 to R90) -/

/-- R90: the bytes are stored behind the held ones and `data_len` grows by `len`. -/
def Instance.appendBytes (n : Instance) (bytes : List Byte) (len : Nat) : Except Fault Response := do
  let n' ← n.writeBytes n.dataLen bytes
  ret { n' with dataLen := n.dataLen + len } (.num 0)

/-- The body of `ADD_DATA` (R88, R89): the checks in their order (60_exceptions.md R132), one
compaction when the chunk does not fit, which "stays done" when it still does not. -/
def Instance.receive (n : Instance) (data : Option (List Byte)) (len : Nat) : Except Fault Response :=
  if n.constructed = false then raise n .invalidArgument
  else if data = none ∨ len = 0 then raise n .invalidArgument
  else if n.dataLen + len > n.capacity then do
    let n' ← n.compact
    if n'.dataLen + len > n'.capacity then raise n' .bufferFull
    else n'.appendBytes (inputBytes data len) len
  else n.appendBytes (inputBytes data len) len

end Sys2Proof.Machine
end

