-- ==== Sys2Proof/Machine/Crc.lean ====
section
/-! DEFINITION. The CRC-16 engine (40_crc16.md): `CRC_BYTE`, the function `crc16`, and the command
`CRC16`. Its working register `crc` "exists only during one evaluation of `crc16`" (10_state.md R14):
it is the accumulator of the fold. -/

namespace Sys2Proof.Machine

/-- One shift of `CRC_BYTE` (R66): the top bit is tested as it stood before the shift. -/
def crcShift (c : Word) : Word :=
  if c.msb then (c <<< 1) ^^^ Config.crcPoly else c <<< 1

/-- `b << 8` as a 16-bit value: the byte in the high half (R66). -/
def highByte (b : Byte) : Word := b.setWidth 16 <<< 8

/-- `CRC_BYTE(c, b)` (R66), the normative bit form. -/
def crcByte (c : Word) (b : Byte) : Word := Nat.repeat crcShift 8 (c ^^^ highByte b)

/-- `crc16(data)` (R68): from 0xFFFF, the bytes in sequence order, no final XOR. -/
def crc16 (data : List Byte) : Word := data.foldl crcByte Config.crcInit

/-- `T[i] = CRC_BYTE(0x0000, i)`, the entry of the table form (R67). -/
def crcTable (i : Byte) : Word := crcByte 0#16 i

/-- The table form of `CRC_BYTE` (R67), equal to the bit form. -/
def crcByteTable (c : Word) (b : Byte) : Word := (c <<< 8) ^^^ crcTable (hi8 c ^^^ b)

/-- `CRC16 data` (R68): total, no error status, no state read or written. -/
def execCrc16 (data : List Byte) (s : State) : Host.Outcome State Fault Refusal :=
  respond s (ret s.inst (.num (crc16 data).toNat))

end Sys2Proof.Machine
end

