-- ==== Sys2Proof/Machine/Extract.lean ====
section
/-! DEFINITION. The command `EXTRACT` (43_reconstructor_extract.md R99 to R110), step by step in the
source's own numbering, and the conceptual state machine of R111. -/

namespace Sys2Proof.Machine

/-- What steps 2a to 2f find at the cursor. -/
inductive Verdict where
  /-- 2a: fewer than 4 live bytes (R103). -/
  | headerIncomplete
  /-- 2b: the two bytes at the cursor are not the magic bytes (R104). -/
  | badMagic
  /-- 2c: Length exceeds the maximum (R105); "never true" for a 2-byte field. -/
  | lengthTooLarge
  /-- 2d: fewer than `total_size` live bytes (R106). -/
  | bodyIncomplete
  /-- 2e: `output_capacity < Length` (R107). -/
  | outputTooSmall
  /-- 2f: the CRC does not match (R108). -/
  | crcMismatch
  /-- 2f: the CRC matches (R109). -/
  | emit (payload : List Byte)
  deriving DecidableEq, Repr

/-- Steps 2e and 2f at a candidate whose whole frame is buffered (R107 to R109). -/
def Instance.validate (n : Instance) (outputCapacity length : Nat) : Except Fault Verdict :=
  if outputCapacity < length then .ok .outputTooSmall
  else do
    let payload ← n.memBytes n.payloadAddr length
    let received ← n.memRead16 (n.crcAddr length)
    if crc16 payload ≠ received then .ok .crcMismatch else .ok (.emit payload)

/-- Steps 2c to 2f at a candidate header (R105 to R109). -/
def Instance.examineCandidate (n : Instance) (outputCapacity : Nat) : Except Fault Verdict := do
  let length ← n.memRead16 n.lengthAddr
  if length.toNat > Config.maxPayload then .ok .lengthTooLarge
  else if n.usage < totalSize length.toNat then .ok .bodyIncomplete
  else n.validate outputCapacity length.toNat

/-- Steps 2a to 2f at the cursor, tried in that order (R102 to R109); they read and do not write. -/
def Instance.examine (n : Instance) (outputCapacity : Nat) : Except Fault Verdict :=
  if n.usage < Config.headerSize then .ok .headerIncomplete
  else do
    let m1 ← n.readByte n.magic1Addr
    let m2 ← n.readByte n.magic2Addr
    if m1 ≠ Config.magic1 ∨ m2 ≠ Config.magic2 then .ok .badMagic
    else n.examineCandidate outputCapacity

/-- RESYNC: "advance `offset` by exactly 1 byte" (R104, R108, R121). -/
def Instance.advanceOne (n : Instance) : Instance := { n with offset := n.offset + 1 }

/-- "compact and return 0 ("need more data")" (R103, R106, R110). -/
def Instance.needMoreData (n : Instance) : Except Fault Response := do
  let n' ← n.compact
  .ok (n', .needMoreData)

/-- The emit (R109): counter, cursor past the frame, no compaction. -/
def Instance.emitPayload (n : Instance) (payload : List Byte) : Except Fault Response :=
  .ok ({ n.countPacket with offset := n.offset + totalSize payload.length }, .emitted payload)

/-- Step 2 and step 3 (R102, R110). Each turn returns or advances the cursor by 1 while
`offset < data_len`, so `usage` turns are enough (R112); with none left the loop test fails too.
DESIGN CHOICE, notes/assumptions/13.md. -/
def Instance.extractLoop (outputCapacity : Nat) : Nat → Instance → Except Fault Response
  | 0, n => n.needMoreData
  | turns + 1, n =>
    if n.offset < n.dataLen then do
      match ← n.examine outputCapacity with
      | .headerIncomplete => n.needMoreData
      | .badMagic => extractLoop outputCapacity turns n.countFrameError.advanceOne
      | .lengthTooLarge => extractLoop outputCapacity turns n.countFrameError.advanceOne
      | .bodyIncomplete => n.needMoreData
      | .outputTooSmall => extractLoop outputCapacity turns n.countFrameError.advanceOne
      | .crcMismatch => extractLoop outputCapacity turns n.countCrcError.advanceOne
      | .emit payload => n.emitPayload payload
    else n.needMoreData

/-- Step 1 (R101): "if `offset` has grown large (≥1024) and consumed bytes exist, compact now". -/
def Instance.entryCompact (n : Instance) : Except Fault Instance :=
  if n.offset ≥ Config.compactThreshold ∧ n.offset > 0 then n.compact else .ok n

/-- The body of `EXTRACT` (R100 to R110). -/
def Instance.extract (n : Instance) (output : Presence) (outputCapacity : Nat) :
    Except Fault Response :=
  if n.constructed = false ∨ output = .absent then raise n .invalidArgument
  else do
    let n' ← n.entryCompact
    n'.extractLoop outputCapacity n'.usage

/-- `EXTRACT output output_capacity` (R99). -/
def execExtract (output : Presence) (outputCapacity : Nat) (s : State) :
    Host.Outcome State Fault Refusal :=
  respond s (s.inst.extract output outputCapacity)

/-! ### The conceptual state machine (R111) and the self-healing conditions (R128, R129) -/

/-- The six named states: "control points of one `EXTRACT`, not stored state" (R111, R25).
DEDUCED, notes/assumptions/14.md. -/
inductive ExtractPoint where
  | searching
  | headerFound
  | awaitingBody
  | validating
  | emit
  | resync
  deriving DecidableEq, Repr

/-- The control points one turn of the loop passes, by what it finds (R111's table). -/
def Verdict.points : Verdict → List ExtractPoint
  | .headerIncomplete => [.searching]
  | .badMagic => [.searching, .resync]
  | .lengthTooLarge => [.searching, .headerFound, .resync]
  | .bodyIncomplete => [.searching, .headerFound, .awaitingBody]
  | .outputTooSmall => [.searching, .headerFound, .validating, .resync]
  | .crcMismatch => [.searching, .headerFound, .validating, .resync]
  | .emit _ => [.searching, .headerFound, .validating, .emit]

/-- The transitions of R111's table between named states. -/
def ExtractPoint.leadsTo : ExtractPoint → ExtractPoint → Bool
  | .searching, .resync => true
  | .searching, .headerFound => true
  | .headerFound, .resync => true
  | .headerFound, .awaitingBody => true
  | .headerFound, .validating => true
  | .validating, .resync => true
  | .validating, .emit => true
  | .resync, .searching => true
  | _, _ => false

/-- The taxonomy name of a condition the loop counts and skips (R128, R129); `none` for the others. -/
def Verdict.condition : Verdict → Option Status
  | .badMagic => some .frameSyncError
  | .lengthTooLarge => some .frameSyncError
  | .outputTooSmall => some .frameSyncError
  | .crcMismatch => some .crcMismatch
  | .headerIncomplete => none
  | .bodyIncomplete => none
  | .emit _ => none

end Sys2Proof.Machine
end

