-- ==== Sys2Proof/Machine/Frame.lean ====
section
/-! DEFINITION. The frame encoder (41_frame_encoder.md): the frame of a payload, validity of a frame
(30_encoding.md R52), and the command `FRAME`. -/

namespace Sys2Proof.Machine

/-- The frame of a payload (R78): Magic1, Magic2, big-endian Length, the payload verbatim, the
big-endian CRC of the payload alone. -/
def frameOf (payload : List Byte) : List Byte :=
  frameBytes (BitVec.ofNat 16 payload.length) payload (crc16 payload)

/-- R52: `f` is a valid frame carrying `p`. -/
def ValidFrame (f p : List Byte) : Prop :=
  6 ≤ f.length ∧ f[0]? = some Config.magic1 ∧ f[1]? = some Config.magic2 ∧
    ∃ h l ch cl : Byte, f[2]? = some h ∧ f[3]? = some l ∧
      f.length = 6 + (be16 h l).toNat ∧ p = (f.drop 4).take (be16 h l).toNat ∧
      f[4 + (be16 h l).toNat]? = some ch ∧ f[5 + (be16 h l).toNat]? = some cl ∧
      be16 ch cl = crc16 p

/-- The body of `FRAME` (R74): the three checks in their order (R79), then the frame. The output
operand is written only on success (R80), so the bytes written are the whole of `out`. -/
def frameResponse (n : Instance) (payload : Option (List Byte)) (payloadLen : Nat)
    (output : Presence) (outputCapacity : Nat) : Except Fault Response :=
  if (payload = none ∧ payloadLen > 0) ∨ output = .absent then raise n .invalidArgument
  else if payloadLen > Config.maxPayload then raise n .payloadTooLarge
  else if outputCapacity < totalSize payloadLen then raise n .outputTooSmall
  else .ok (n, .written (frameOf (inputBytes payload payloadLen)))

/-- `FRAME payload payload_len output output_capacity` (R74). -/
def execFrame (payload : Option (List Byte)) (payloadLen : Nat) (output : Presence)
    (outputCapacity : Nat) (s : State) : Host.Outcome State Fault Refusal :=
  respond s (frameResponse s.inst payload payloadLen output outputCapacity)

end Sys2Proof.Machine
end

