-- ==== Sys2Proof/Machine/Lifecycle.lean ====
section
/-! DEFINITION. The commands that create, empty and inspect a reconstructor: `NEW`, `RESET`, `USAGE`,
`STATS` (42_reconstructor_buffer.md R83 to R85, R92 to R96). -/

namespace Sys2Proof.Machine

/-- The instance a successful `NEW` makes, whatever stood there before (R83, R85). The buffer is the
caller's: "contents not cleared, not read before written", so no cell of it has a value yet. -/
def Instance.fresh (capacity : Nat) : Instance where
  constructed := true
  capacity := capacity
  buf := []
  dataLen := 0
  offset := 0
  packetsReceived := 0
  crcErrors := 0
  frameErrors := 0

/-- `NEW buffer capacity` (R83, R84): "A failed `NEW` changes nothing". -/
def execNew (buffer : Presence) (capacity : Nat) (s : State) : Host.Outcome State Fault Refusal :=
  respond s
    (if buffer = .absent ∨ capacity < Config.minCapacity then raise s.inst .invalidArgument
     else ret (.fresh capacity) (.num 0))

/-- What an instance command does with the instance once constructed; `InvalidArgument` before (R96). -/
def whenConstructed (n : Instance) (k : Except Fault Response) : Except Fault Response :=
  if n.constructed = false then raise n .invalidArgument else k

/-- `RESET` (R92, R93): the two registers to 0; counters, capacity and cells stay. -/
def execReset (s : State) : Host.Outcome State Fault Refusal :=
  respond s (whenConstructed s.inst (ret { s.inst with dataLen := 0, offset := 0 } (.num 0)))

/-- `USAGE` (R94). -/
def execUsage (s : State) : Host.Outcome State Fault Refusal :=
  respond s (whenConstructed s.inst (ret s.inst (.num s.inst.usage)))

/-- `STATS` (R95). -/
def execStats (s : State) : Host.Outcome State Fault Refusal :=
  respond s (whenConstructed s.inst
    (ret s.inst (.counters s.inst.packetsReceived s.inst.crcErrors s.inst.frameErrors)))

end Sys2Proof.Machine
end

