-- ==== Sys2Proof/Machine/Receive.lean ====
section
/-! DEFINITION. What brings bytes into the buffer: the command `ADD_DATA` (42_reconstructor_buffer.md
R88 to R91) and bytes arriving on the wire (10_state.md R30 (4)). -/

namespace Sys2Proof.Machine

/-- `ADD_DATA data len` (R88). -/
def execAddData (data : Option (List Byte)) (len : Nat) (s : State) :
    Host.Outcome State Fault Refusal :=
  respond s (s.inst.receive data len)

/-- Received bytes reach the block as the operand of one `ADD_DATA`: the transport "delivers received
bytes to `add_data`" (00_scope.md R5 (b)), "the block sees it only as the concatenation of the
`ADD_DATA` operands" (10_state.md R30). DEDUCED, notes/assumptions/2.md. -/
def deliver (bytes : List Byte) (s : State) : Host.Outcome State Fault Refusal :=
  respond s (s.inst.receive (some bytes) bytes.length)

/-- A frame arriving on the wire (30_encoding.md R47): its bytes are delivered. Nothing of it is
checked here: `ADD_DATA` "does not look at the bytes" (R90), and `EXTRACT` parses them later. -/
def execWireFrame (length : Word) (payload : List Byte) (crc : Word) (s : State) :
    Host.Outcome State Fault Refusal :=
  deliver (frameBytes length payload crc) s

end Sys2Proof.Machine
end

