-- ==== Sys2Proof/Machine/Dispatch.lean ====
section
/-! DEFINITION. One arm per instruction. -/

namespace Sys2Proof.Machine

def exec (i : Instr) (s : State) : Host.Outcome State Fault Refusal :=
  match i with
  | .crc16 data => Sys2Proof.Machine.execCrc16 data s
  | .frame payload payloadLen output outputCapacity => Sys2Proof.Machine.execFrame payload payloadLen output outputCapacity s
  | .new buffer capacity => Sys2Proof.Machine.execNew buffer capacity s
  | .addData data len => Sys2Proof.Machine.execAddData data len s
  | .extract output outputCapacity => Sys2Proof.Machine.execExtract output outputCapacity s
  | .reset => Sys2Proof.Machine.execReset s
  | .usage => Sys2Proof.Machine.execUsage s
  | .stats => Sys2Proof.Machine.execStats s
  | .wireFrame length payload crc => Sys2Proof.Machine.execWireFrame length payload crc s

end Sys2Proof.Machine
end

