-- ==== Sys2Proof/Machine/Reject.lean ====
section
/-! DEFINITION. What the block does with a request that is not an instruction. -/

namespace Sys2Proof.Machine

/-- A reserved `op`, with any operands, "returns `InvalidArgument`, changes no state and writes no
output" (30_encoding.md R57). Received bytes that are no frame are delivered all the same: "Every byte
sequence is legal input to `ADD_DATA`" (R54). Command bytes that are no record of 00_scope.md R11 have
no meaning in the spec and are refused by name (notes/assumptions/1.md). -/
def handleReject (bytes : List Byte) (e : Reject) (s : State) : Host.Outcome State Fault Refusal :=
  match e with
  | .reservedOp _ => respond s (raise s.inst .invalidArgument)
  | .notAFrame => deliver bytes s
  | .noOp => .refused (.notACommand .noOp)
  | .truncatedOperand => .refused (.notACommand .truncatedOperand)
  | .nonMinimalNatural => .refused (.notACommand .nonMinimalNatural)
  | .badPresence b => .refused (.notACommand (.badPresence b))
  | .trailingBytes => .refused (.notACommand .trailingBytes)

/-- The bytes of a request. -/
def requestBytes : Request → List Byte
  | .command bytes => bytes
  | .wire bytes => bytes

end Sys2Proof.Machine
end

