-- ==== Sys2Proof/Machine/Step.lean ====
section
/-! DEFINITION. One step: "a command is one atomic step" (70_reset_and_hazards.md R159, 20_memory.md
R36). The oldest request at the port is taken and executed to completion; requests form one total
order (R42). With none at the port nothing happens: the block "acts only while executing a command"
(60_exceptions.md R142), DESIGN CHOICE, notes/assumptions/6.md. -/

namespace Sys2Proof.Machine

def step (s : State) : Host.Outcome State Fault Refusal :=
  match s.pending with
  | [] => .next s
  | r :: rest =>
    match decode r with
    | .ok i => exec i { s with pending := rest }
    | .error e => handleReject (requestBytes r) e { s with pending := rest }

/-- The instruction of a table word put at the head of the port, so that the very next step takes it
(notes/assumptions/5.md). -/
def State.withFetchWord (s : State) (nbits w : Nat) : State :=
  { s with pending := tableRequest nbits w :: s.pending }

end Sys2Proof.Machine
end

