-- ==== Sys2Proof/Machine/Script.lean ====
section
/-! DEFINITION. Command scripts and the pseudo-commands `SEND`, `FEED`, `DRAIN` and `DRAIN0`, "each an
abbreviation for a sequence of real commands" (30_encoding.md R61, R62). Nothing of `step` calls this
file. -/

namespace Sys2Proof.Machine

/-- The commands of a script, one after another, with the results handed back, oldest first. -/
def runScript : List Instr → State → Host.Outcome (State × List Result) Fault Refusal
  | [], s => .next (s, [])
  | i :: rest, s =>
    match exec i s with
    | .next t =>
      match runScript rest t with
      | .next (u, rs) => .next (u, t.result.toList ++ rs)
      | .fault f => .fault f
      | .refused r => .refused r
    | .fault f => .fault f
    | .refused r => .refused r

/-- `SEND <bytes>`: "`FRAME <bytes> out=<len+6>` followed by `ADD_DATA` of the frame's bytes" (R62). For a
payload of more than 65535 bytes `FRAME` answers `PayloadTooLarge` and there is no frame, and the spec does
not say what `ADD_DATA` then gets: here still `frameOf payload`, its Length field reduced mod 65536.
DESIGN CHOICE, notes/assumptions/15.md. -/
def scriptSend (payload : List Byte) : List Instr :=
  [.frame (some payload) payload.length .present (payload.length + 6),
    .addData (some (frameOf payload)) (payload.length + 6)]

/-- Cut bytes into pieces of `k`, the last possibly shorter; `fuel` bounds the number of pieces. With `k ≥ 1`
the bytes run out first when `fuel` is their number; with `k = 0` there are `fuel` empty pieces (see
`scriptFeed`). -/
def pieces (k : Nat) : Nat → List Byte → List (List Byte)
  | 0, _ => []
  | fuel + 1, bytes => if bytes = [] then [] else bytes.take k :: pieces k fuel (bytes.drop k)

/-- `FEED <bytes> chunk=<k>`: `ADD_DATA` of successive `k`-byte pieces (R62). The spec gives no lower bound on
`k` and says nothing of `chunk=0`: here that is as many `ADD_DATA` of the empty sequence as there are
bytes, each an `InvalidArgument`. DESIGN CHOICE, notes/assumptions/16.md. -/
def scriptFeed (bytes : List Byte) (k : Nat) : List Instr :=
  (pieces k bytes.length bytes).map (fun d => .addData (some d) d.length)

/-- `EXTRACT out=<cap>` repeated until a result meets `stop`, at most `turns` times; the results,
oldest first. -/
def drainUntil (stop : Result → Bool) (outputCapacity : Nat) :
    Nat → State → Host.Outcome (State × List Result) Fault Refusal
  | 0, s => .next (s, [])
  | turns + 1, s =>
    match exec (.extract .present outputCapacity) s with
    | .next t =>
      match t.result with
      | none => .next (t, [])
      | some r =>
        if stop r then .next (t, [r])
        else
          match drainUntil stop outputCapacity turns t with
          | .next (u, rs) => .next (u, r :: rs)
          | .fault f => .fault f
          | .refused e => .refused e
    | .fault f => .fault f
    | .refused e => .refused e

/-- `DRAIN out=<cap>`: until a result has `emit = 0` (R62). Every emit consumes at least 6 live bytes,
so `usage + 1` turns reach it. -/
def drain (outputCapacity : Nat) (s : State) : Host.Outcome (State × List Result) Fault Refusal :=
  drainUntil (fun r => !r.emit) outputCapacity (s.inst.usage + 1) s

/-- `DRAIN0 out=<cap>`: "the source's literal loop: repeat until `value = 0`" (R62). -/
def drain0 (outputCapacity : Nat) (s : State) : Host.Outcome (State × List Result) Fault Refusal :=
  drainUntil (fun r => r.value == .num 0) outputCapacity (s.inst.usage + 1) s

end Sys2Proof.Machine
end

