-- ==== Sys2Proof/Machine/Stream.lean ====
section
/-! DEFINITION. What an owner can observe of an instance (10_state.md R26), and the stream model of
43_reconstructor_extract.md R120: "this simpler machine over `LIVE`, a byte list, with `capacity` and
the three counters". "The buffer model is the normative one, the stream model a proof device": nothing
of `step` calls this file; claims compare the two. -/

namespace Sys2Proof.Machine

/-- "Observable behaviour depends only on `(constructed, capacity, LIVE, packets_received, crc_errors,
frame_errors)`" (R26). -/
structure StreamState where
  constructed : Bool
  capacity : Nat
  live : List Byte
  packetsReceived : Nat
  crcErrors : Nat
  frameErrors : Nat
  deriving DecidableEq, Repr

/-- What is observable of an instance; a fault where a live byte cannot be read, which no reachable
instance has. -/
def Instance.observe (n : Instance) : Except Fault StreamState := do
  let l ← n.live
  .ok
    { constructed := n.constructed
      capacity := n.capacity
      live := l
      packetsReceived := n.packetsReceived
      crcErrors := n.crcErrors
      frameErrors := n.frameErrors }

/-- The loop of `EXTRACT(cap)` over the byte list (R120). The list is the live bytes; the `live` field
is set on return. -/
def StreamState.extractLoop (outputCapacity : Nat) : List Byte → StreamState → StreamState × Result
  | [], t => ({ t with live := [] }, .needMoreData)
  | b0 :: rest, t =>
    match rest with
    | b1 :: h :: l :: tail =>
      if b0 ≠ Config.magic1 ∨ b1 ≠ Config.magic2 then
        extractLoop outputCapacity rest { t with frameErrors := t.frameErrors + 1 }
      else
        let length := (be16 h l).toNat
        match tail.drop length with
        | ch :: cl :: after =>
          if outputCapacity < length then
            extractLoop outputCapacity rest { t with frameErrors := t.frameErrors + 1 }
          else if crc16 (tail.take length) ≠ be16 ch cl then
            extractLoop outputCapacity rest { t with crcErrors := t.crcErrors + 1 }
          else
            ({ t with live := after, packetsReceived := t.packetsReceived + 1 },
              .emitted (tail.take length))
        | _ => ({ t with live := b0 :: rest }, .needMoreData)
    | _ => ({ t with live := b0 :: rest }, .needMoreData)

/-- `ADD_DATA(d)` over the byte list (R120, R88, R96). -/
def StreamState.receive (t : StreamState) (data : Option (List Byte)) (len : Nat) : StreamState × Result :=
  if t.constructed = false ∨ data = none ∨ len = 0 then (t, .failed .invalidArgument)
  else if t.live.length + len > t.capacity then (t, .failed .bufferFull)
  else ({ t with live := t.live ++ inputBytes data len }, .okValue (.num 0))

/-- The answer of an instance command before `NEW` (R96), else the one given. -/
def StreamState.whenConstructed (t : StreamState) (r : StreamState × Result) : StreamState × Result :=
  if t.constructed = false then (t, .failed .invalidArgument) else r

/-- The stream model's answer to an instruction (R120). -/
def StreamState.exec (t : StreamState) : Instr → StreamState × Result
  | .crc16 data => (t, .okValue (.num (crc16 data).toNat))
  | .frame payload payloadLen output outputCapacity =>
    (t,
      if (payload = none ∧ payloadLen > 0) ∨ output = .absent then .failed .invalidArgument
      else if payloadLen > Config.maxPayload then .failed .payloadTooLarge
      else if outputCapacity < totalSize payloadLen then .failed .outputTooSmall
      else .written (frameOf (inputBytes payload payloadLen)))
  | .new buffer capacity =>
    if buffer = .absent ∨ capacity < Config.minCapacity then (t, .failed .invalidArgument)
    else
      ({ constructed := true, capacity := capacity, live := [], packetsReceived := 0, crcErrors := 0,
         frameErrors := 0 }, .okValue (.num 0))
  | .addData data len => t.receive data len
  | .extract output outputCapacity =>
    if t.constructed = false ∨ output = .absent then (t, .failed .invalidArgument)
    else StreamState.extractLoop outputCapacity t.live t
  | .reset => t.whenConstructed ({ t with live := [] }, .okValue (.num 0))
  | .usage => t.whenConstructed (t, .okValue (.num t.live.length))
  | .stats =>
    t.whenConstructed
      (t, .okValue (.counters t.packetsReceived t.crcErrors t.frameErrors))
  | .wireFrame length payload crc =>
    t.receive (some (frameBytes length payload crc)) (frameBytes length payload crc).length

end Sys2Proof.Machine
end

