-- ==== Sys2Proof/Safety.lean ====
section
/-! DEFINITION. What counts as a good state: the invariant of 10_state.md R20, with what it takes for
every access of every command to be in bounds and of a live byte (20_memory.md R38); and when a run
stays within the widths of an implementation (00_scope.md R8). -/

namespace Sys2Proof.Machine

/-- "`0 ≤ offset ≤ data_len ≤ capacity`" (R20), `capacity` legal once constructed (R17), the buffer's
contents in their one form and inside `0 .. capacity-1` (R22, R31), and every live cell written (the
live bytes are those `ADD_DATA` stored, R21). -/
structure Instance.Inv (n : Instance) : Prop where
  bufWf : n.buf.wf
  cellsInRange : ∀ c ∈ n.buf, c.1 < n.capacity
  offsetLe : n.offset ≤ n.dataLen
  dataLenLe : n.dataLen ≤ n.capacity
  liveWritten : ∀ i, n.offset ≤ i → i < n.dataLen → (n.buf.read? i).isSome
  capacityLegal : n.constructed = true → Config.minCapacity ≤ n.capacity

/-- The machine's invariant: the instance's. Requests at the port and the latest result are free. -/
abbrev State.Inv (s : State) : Prop := s.inst.Inv

/-- R8, 93 U1 and U4, what they ask of the instance: `capacity + 65541 ≤ 2^IDX_W - 1`, no capacity above
`CAP_MAX`, and no counter at `2^CTR_W - 1`. U4 asks something of every operand too: `operandFits`. -/
def Instance.fitsWidths (w : Config.Widths) (n : Instance) : Prop :=
  n.capacity + 65541 ≤ 2 ^ w.idxW - 1 ∧ (∀ m, w.capMax = some m → n.capacity ≤ m) ∧
    n.packetsReceived < 2 ^ w.ctrW - 1 ∧ n.crcErrors < 2 ^ w.ctrW - 1 ∧
    n.frameErrors < 2 ^ w.ctrW - 1

/-- R8 and 93 U4, what they ask of an instruction offered to an instance of this capacity: "every `len`
offered to `ADD_DATA` satisfies `capacity + len ≤ 2^IDX_W - 1`", a frame on the wire being its bytes
(notes/assumptions/2.md), and a capacity offered to `NEW` is one the widths allow. `FRAME` forms
`4 + payload_len + 2` only up to 65541, which the instance's own condition covers. -/
def operandFits (w : Config.Widths) (capacity : Nat) : Instr → Prop
  | .crc16 _ => True
  | .frame _ _ _ _ => True
  | .new _ newCapacity =>
    newCapacity + 65541 ≤ 2 ^ w.idxW - 1 ∧ ∀ m, w.capMax = some m → newCapacity ≤ m
  | .addData _ len => capacity + len ≤ 2 ^ w.idxW - 1
  | .extract _ _ => True
  | .reset => True
  | .usage => True
  | .stats => True
  | .wireFrame _ payload _ => capacity + totalSize payload.length ≤ 2 ^ w.idxW - 1

/-- Which instructions act on the instance; `CRC16` and `FRAME` "do not depend on `constructed`" (R96). -/
def needsConstructed : Instr → Bool
  | .crc16 _ => false
  | .frame _ _ _ _ => false
  | .new _ _ => false
  | .addData _ _ => true
  | .extract _ _ => true
  | .reset => true
  | .usage => true
  | .stats => true
  | .wireFrame _ _ _ => true

/-- The four live bytes at the cursor are `AA 55 hh ll` and declare more than the buffer can hold
(70_reset_and_hazards.md R151). -/
def stalledBytes (capacity : Nat) : List Byte → Prop
  | m1 :: m2 :: h :: l :: _ =>
    m1 = Config.magic1 ∧ m2 = Config.magic2 ∧ capacity < totalSize (be16 h l).toNat
  | _ => False

/-- No two adjacent bytes are the magic bytes (R114's condition for an exact walk). -/
def noMagicPair : List Byte → Bool
  | a :: rest =>
    match rest with
    | b :: _ => !(a == Config.magic1 && b == Config.magic2) && noMagicPair rest
    | [] => true
  | [] => true

end Sys2Proof.Machine
end

