-- ==== Sys2Proof/Certificates/Slice0/Obligations.lean ====
section
/-! DEFINITION. The statements for the provers. Each names the rule of spec/ it formalises, or says
which decision or reading it rests on. `OK(v)` is `Result.okValue v`, a raised status is
`Result.failed st` (value 0, emit 0, no output), "need more data" is `Result.needMoreData`, an emit of
`p` is `Result.emitted p`. -/

open Sys2Proof Sys2Proof.Machine

/-! ### Power-on, the invariant, the step -/

/-- 70 R143, 10 R27: at power-on `constructed = 0`. The registers' zeros are the model's own choice
(notes/assumptions/3.md), the empty port and the absence of a result too (notes/assumptions/7.md).
Whatever is asked of the reconstructor then is `InvalidArgument` and changes nothing but the result handed
back (R96, the spec's decision D11, notes/assumptions/11.md), a frame on the wire included, which is an
`ADD_DATA` by the model's reading (DEDUCED, notes/assumptions/2.md). -/
def Obligations.PowerOnIsUnconstructed : Prop :=
  State.reset.inst.constructed = false ∧ State.reset.pending = [] ∧ State.reset.result = none ∧
    ∀ i, needsConstructed i = true →
      exec i State.reset = .next { State.reset with result := some (.failed .invalidArgument) }

/-- The invariant of `Safety.lean` holds at power-on. The spec states it only after `NEW` (10 R20) and leaves
`offset`, `data_len` and `capacity` unspecified before (10 R27): that it holds here rests on the model's
choice of zeros (DESIGN CHOICE, notes/assumptions/3.md). -/
def Obligations.PowerOnMeetsInvariant : Prop := State.reset.Inv

/-- 10 R20: "After `NEW` succeeds and after every command, `0 ≤ offset ≤ data_len ≤ capacity` holds."
The invariant kept says that and more: the buffer's contents stay in their one form inside the buffer
and every live cell has been written. A successful `NEW` establishes it from any state. -/
def Obligations.EveryStepKeepsInvariant : Prop :=
  (∀ s t, s.Inv → step s = .next t →
    t.Inv ∧ t.inst.offset ≤ t.inst.dataLen ∧ t.inst.dataLen ≤ t.inst.capacity) ∧
  (∀ s t capacity, 256 ≤ capacity → exec (.new .present capacity) s = .next t →
    t.Inv ∧ t.inst.offset ≤ t.inst.dataLen ∧ t.inst.dataLen ≤ t.inst.capacity)

/-- From 20 R38, "Every buffer access of every command is in bounds ... and every read is of a live byte":
in the model an access at an index out of range, and a read of a cell nothing has written, is a fault, and
no step faults. (That dead cells which have been written are not read either is what
`OnlyObservablesMatter` says.) -/
def Obligations.NoStepFaults : Prop := ∀ s f, s.Inv → step s ≠ .fault f

/-- A step takes the oldest request, and when the decoder reads an instruction from it, the step is
that instruction's execution. With no request at the port nothing happens (the model's reading of
R142, notes/assumptions/6.md). -/
def Obligations.StepRunsDecoded : Prop :=
  (∀ s r rest i, s.pending = r :: rest → decode r = .ok i →
    i.wf = true ∧ step s = exec i { s with pending := rest }) ∧
  (∀ s, s.pending = [] → step s = .next s)

/-- 20 R42: "the commands of an instance form one total order (the order the owner issues them)": a
step takes the oldest request and leaves the others as they are; no instruction touches the port. -/
def Obligations.RequestsAreTakenInOrder : Prop :=
  (∀ s t, step s = .next t → t.pending = s.pending.tail) ∧
  (∀ i s t, exec i s = .next t → t.pending = s.pending)

/-- 30 R57 (the spec's decision D21): a command whose `op` is not one of the eight answers
`InvalidArgument`, whatever operands follow, on any instance, and changes nothing else. -/
def Obligations.ReservedOpIsInvalidArgument : Prop :=
  ∀ (s : State) (op : Byte) (operands : List Byte) (rest : List Request),
    op.toNat ∉ [0x01, 0x02, 0x10, 0x11, 0x12, 0x13, 0x14, 0x15] →
    s.pending = .command (op :: operands) :: rest →
    step s = .next { s with pending := rest, result := some (.failed .invalidArgument) }

/-! ### Encodings -/

/-- Words written out from the spec's tables: one command of each op byte of 30 R55 with its operands, and a
frame of R47 with Length 2. The image of the operands in bytes is the model's choice (DESIGN CHOICE,
notes/assumptions/1.md), and so is what stands for a table word, its operands zero or ABSENT and a zero CRC
field (DESIGN CHOICE, notes/assumptions/5.md). -/
def Obligations.WrittenOutWordsDecode : Prop :=
  decode (.command [0x01#8, 3#8, 0x61#8, 0x62#8, 0x63#8]) = .ok (.crc16 [0x61#8, 0x62#8, 0x63#8]) ∧
  decode (.command [0x02#8, 0#8, 0#8, 1#8, 6#8]) = .ok (.frame none 0 .present 6) ∧
  decode (.command [0x10#8, 1#8, 0x80#8, 0x02#8]) = .ok (.new .present 256) ∧
  decode (.command [0x11#8, 1#8, 1#8, 0xAA#8]) = .ok (.addData (some [0xAA#8]) 1) ∧
  decode (.command [0x12#8, 1#8, 16#8]) = .ok (.extract .present 16) ∧
  decode (.command [0x13#8]) = .ok .reset ∧
  decode (.command [0x14#8]) = .ok .usage ∧
  decode (.command [0x15#8]) = .ok .stats ∧
  decode (.wire [0xAA#8, 0x55#8, 0x00#8, 0x02#8, 0xAA#8, 0x55#8, 0xE5#8, 0xEA#8]) =
    .ok (.wireFrame 2#16 [0xAA#8, 0x55#8] 0xE5EA#16) ∧
  decodeTableWord 8 0x13 = some .reset ∧
  decodeTableWord 32 0xAA550000 = some (.wireFrame 0#16 [] 0#16)

/-- Every well-formed instruction, with every operand at every value, is read back from its
encoding. The operand image is the model's own (notes/assumptions/1.md). -/
def Obligations.DecodeInvertsEncode : Prop := ∀ i : Instr, i.wf = true → decode (encode i) = .ok i

/-- The other way: a request the decoder accepts is the encoding of the instruction it reads, and
that instruction is well formed; no two requests stand for one instruction. -/
def Obligations.EncodeInvertsDecode : Prop :=
  ∀ (r : Request) (i : Instr), decode r = .ok i → i.wf = true ∧ encode i = r

/-- 30 R47, R49: what the decoder takes for a frame on the wire is exactly `AA 55 hh ll`, then
`hh × 256 + ll` payload bytes, then two CRC bytes; and the instruction's fields are those, big-endian. -/
def Obligations.WireFramesHaveTheFormat : Prop :=
  ∀ (bytes : List Byte) (length : Word) (payload : List Byte) (crc : Word),
    decode (.wire bytes) = .ok (.wireFrame length payload crc) ↔
      ∃ h l ch cl : Byte,
        bytes = 0xAA#8 :: 0x55#8 :: h :: l :: (payload ++ [ch, cl]) ∧
        payload.length = h.toNat * 256 + l.toNat ∧
        length.toNat = h.toNat * 256 + l.toNat ∧ crc.toNat = ch.toNat * 256 + cl.toNat

/-! ### The CRC-16 engine -/

/-- 40 R66: `CRC_BYTE(c, b)` as the rule computes it, over the naturals: nine register values, the
first the byte XORed into the high byte, each next a shift by one with bit 15 lost, XORed with 0x1021
when the top bit was set before the shift; the last is the result. Also its corner cases, and its worked
example. -/
def Obligations.CrcByteFollowsTheShifts : Prop :=
  (∀ (c : Word) (b : Byte), ∃ regs : List Word, regs.length = 9 ∧
    regs[0]? = some (c ^^^ BitVec.ofNat 16 (b.toNat * 256)) ∧
    (∀ k x y, regs[k]? = some x → regs[k + 1]? = some y →
      y = if x.toNat / 32768 = 1 then BitVec.ofNat 16 (x.toNat * 2) ^^^ 0x1021#16
          else BitVec.ofNat 16 (x.toNat * 2)) ∧
    regs[8]? = some (crcByte c b)) ∧
  crcByte 0x0000#16 0x00#8 = 0x0000#16 ∧ crcByte 0xFFFF#16 0xFF#8 = 0xFF00#16 ∧
  (∀ (c c' : Word) (b b' : Byte), c.toNat % 256 = c'.toNat % 256 → hi8 c ^^^ b = hi8 c' ^^^ b' →
    crcByte c b = crcByte c' b') ∧
  (List.range 9).map (fun k => Nat.repeat crcShift k (0xFFFF#16 ^^^ highByte 0x31#8)) =
    [0xCEFF#16, 0x8DDF#16, 0x0B9F#16, 0x173E#16, 0x2E7C#16, 0x5CF8#16, 0xB9F0#16, 0x63C1#16,
      0xC782#16] ∧
  crcByte 0xFFFF#16 0x31#8 = 0xC782#16

/-- 40 section 2 (the table form, which the spec marks as derived from R66): the bit form and the
table form of `CRC_BYTE` agree on all 65536 × 256 operand pairs; spot values of the table. -/
def Obligations.CrcTableFormAgrees : Prop :=
  (∀ (c : Word) (b : Byte), crcByte c b = (c <<< 8) ^^^ crcTable (hi8 c ^^^ b)) ∧
  (∀ i : Byte, crcTable i = crcByte 0x0000#16 i) ∧
  crcTable 0x00#8 = 0x0000#16 ∧ crcTable 0x01#8 = 0x1021#16 ∧ crcTable 0xFF#8 = 0x1EF0#16

/-- 40 R69, R70: the empty input gives the initial value, so the CRC field of an empty frame is
`FF FF`; the check string "123456789" gives 0x29B1. -/
def Obligations.CrcKnownValues : Prop :=
  crc16 [] = 0xFFFF#16 ∧ frameOf [] = [0xAA#8, 0x55#8, 0x00#8, 0x00#8, 0xFF#8, 0xFF#8] ∧
  crc16 [0x31#8, 0x32#8, 0x33#8, 0x34#8, 0x35#8, 0x36#8, 0x37#8, 0x38#8, 0x39#8] = 0x29B1#16

/-- 40 R68, R71: `CRC16 data` completes in every state with the CRC of its operand, and leaves the
instance and the port as they were; the CRC starts at 0xFFFF and takes the bytes in order. -/
def Obligations.Crc16CommandAnswers : Prop :=
  (∀ (data : List Byte) (s : State),
    exec (.crc16 data) s =
      .next { s with result := some ⟨.ok, .num (crc16 data).toNat, false, []⟩ }) ∧
  crc16 [] = 0xFFFF#16 ∧ (∀ (d : List Byte) (b : Byte), crc16 (d ++ [b]) = crcByte (crc16 d) b)

/-- 40 section 4 (marked by the spec as derived): evaluation can be continued, and a payload followed
by its own CRC, high byte first, has CRC 0. -/
def Obligations.CrcResidueIsZero : Prop :=
  (∀ a b : List Byte, crc16 (a ++ b) = b.foldl crcByte (crc16 a)) ∧
  ∀ p : List Byte, crc16 (p ++ [hi8 (crc16 p), lo8 (crc16 p)]) = 0x0000#16

/-- 43 R115 rests on this (there marked as general knowledge): sequences of equal length that differ in
exactly one byte have different CRCs, so a single flipped bit is always detected. -/
def Obligations.CrcDetectsOneChangedByte : Prop :=
  ∀ (before after : List Byte) (b b' : Byte), b ≠ b' →
    crc16 (before ++ b :: after) ≠ crc16 (before ++ b' :: after)

/-! ### The frame encoder -/

/-- 41 R78: on success `FRAME` writes Magic1, Magic2, big-endian Length, the payload verbatim, the
big-endian CRC of the payload, and returns the number of bytes; an output of exactly that size is
enough; nothing but the result changes. That an ABSENT payload of length 0 is the empty payload (the second
clause) is R75 as the spec's decision D5 reads it (notes/assumptions/11.md). -/
def Obligations.FrameWritesTheFrame : Prop :=
  (∀ (p : List Byte) (cap : Nat) (s : State), p.length ≤ 65535 → p.length + 6 ≤ cap →
    exec (.frame (some p) p.length .present cap) s =
      .next { s with
        result := some ⟨.ok, .num (p.length + 6), false,
          [0xAA#8, 0x55#8, BitVec.ofNat 8 (p.length / 256), BitVec.ofNat 8 (p.length % 256)] ++ p ++
            [BitVec.ofNat 8 ((crc16 p).toNat / 256), BitVec.ofNat 8 ((crc16 p).toNat % 256)]⟩ }) ∧
  (∀ (cap : Nat) (s : State), 6 ≤ cap →
    exec (.frame none 0 .present cap) s =
      .next { s with
        result := some ⟨.ok, .num 6, false, [0xAA#8, 0x55#8, 0x00#8, 0x00#8, 0xFF#8, 0xFF#8]⟩ })

/-- 41 R75 to R77 with the priority of R79 (the readings D5 and D6 are the spec's own decisions): when a
check fails, the status is that of the first failing check, nothing is written and nothing changes. -/
def Obligations.FrameChecksInOrder : Prop :=
  ∀ (payload : Option (List Byte)) (len : Nat) (output : Presence) (cap : Nat) (s : State),
    ((payload = none ∧ len > 0) ∨ output = .absent ∨ len > 65535 ∨ cap < 4 + len + 2) →
    exec (.frame payload len output cap) s =
      .next { s with result := some (.failed
        (if (payload = none ∧ len > 0) ∨ output = .absent then .invalidArgument
         else if len > 65535 then .payloadTooLarge
         else .outputTooSmall)) }

/-- 30 R52 (marked as derived): for every payload of legal length there is exactly one valid frame,
the one `FRAME` produces; `FRAME`'s output is it. -/
def Obligations.FrameIsTheOneValidFrame : Prop :=
  ∀ (p : List Byte), p.length ≤ 65535 →
    (ValidFrame (frameOf p) p ∧ ∀ f, ValidFrame f p → f = frameOf p) ∧
    ∀ (s : State), ∃ r, exec (.frame (some p) p.length .present (p.length + 6)) s =
      .next { s with result := some r } ∧ r.status = .ok ∧ r.out = frameOf p

/-! ### NEW, RESET, USAGE, STATS -/

/-- 42 R83, R85 and 70 R144 (the zeroing of the counters is the spec's decision D8): a successful `NEW`
makes a fresh, empty instance of the given capacity from any state. That no cell has a value then is the
model's choice for "contents unspecified" (notes/assumptions/4.md). -/
def Obligations.NewMakesFreshInstance : Prop :=
  ∀ (s : State) (capacity : Nat), 256 ≤ capacity →
    exec (.new .present capacity) s =
      .next { s with
        inst :=
          { constructed := true, capacity := capacity, buf := [], dataLen := 0, offset := 0,
            packetsReceived := 0, crcErrors := 0, frameErrors := 0 }
        result := some (.okValue (.num 0)) }

/-- 42 R84 (the spec's decision D7): an ABSENT buffer or a capacity below 256 is `InvalidArgument`,
and a failed `NEW` changes nothing. -/
def Obligations.NewRefusesSmallBuffers : Prop :=
  ∀ (s : State) (buffer : Presence) (capacity : Nat), (buffer = .absent ∨ capacity < 256) →
    exec (.new buffer capacity) s = .next { s with result := some (.failed .invalidArgument) }

/-- 42 R92, R93: `RESET` zeroes `data_len` and `offset` and changes nothing else: counters, capacity
and buffer cells stay. On an unconstructed instance it is `InvalidArgument` (R96, the spec's decision D11,
notes/assumptions/11.md). -/
def Obligations.ResetEmptiesAndKeepsCounters : Prop :=
  ∀ s : State,
    exec .reset s =
      if s.inst.constructed = true then
        .next { s with
          inst := { s.inst with dataLen := 0, offset := 0 }
          result := some (.okValue (.num 0)) }
      else .next { s with result := some (.failed .invalidArgument) }

/-- 42 R94: `USAGE` returns `data_len - offset`, writes no state; under the invariant that is the number
of live bytes and is at most `capacity`. On an unconstructed instance it is `InvalidArgument` (R96, the
spec's decision D11, notes/assumptions/11.md). -/
def Obligations.UsageCountsLiveBytes : Prop :=
  (∀ s : State,
    exec .usage s =
      if s.inst.constructed = true then
        .next { s with result := some (.okValue (.num (s.inst.dataLen - s.inst.offset))) }
      else .next { s with result := some (.failed .invalidArgument) }) ∧
  ∀ n : Instance, n.Inv → ∃ l, n.live = .ok l ∧ l.length = n.dataLen - n.offset ∧
    n.offset + l.length = n.dataLen ∧ l.length ≤ n.capacity

/-- 42 R95 (the command is the spec's addition, D20): `STATS` returns the three counters in their order
and writes no state. -/
def Obligations.StatsReturnsCounters : Prop :=
  ∀ s : State, s.inst.constructed = true →
    exec .stats s =
      .next { s with result := some (.okValue
        (.counters s.inst.packetsReceived s.inst.crcErrors s.inst.frameErrors)) }

/-- 42 R96 (the spec's decision D11): before `NEW`, every command of the reconstructor is
`InvalidArgument` and changes nothing. -/
def Obligations.BeforeNewInvalidArgument : Prop :=
  ∀ (i : Instr) (s : State), needsConstructed i = true → s.inst.constructed = false →
    exec i s = .next { s with result := some (.failed .invalidArgument) }

/-! ### ADD_DATA, the wire, COMPACT -/

/-- 42 R88: ABSENT data or `len = 0` is `InvalidArgument`, whatever the other operand is and however
full the buffer is, and changes nothing. -/
def Obligations.AddDataRefusesEmpty : Prop :=
  ∀ (s : State) (data : Option (List Byte)) (len : Nat), (data = none ∨ len = 0) →
    exec (.addData data len) s = .next { s with result := some (.failed .invalidArgument) }

/-- 42 R90: a chunk that fits, at once or after compaction, is appended: `LIVE` grows by it, counters
and all else stay. When it fits behind `data_len` no byte moves; otherwise the live bytes go to index 0
first. Every cell outside the bytes stored reads as before. -/
def Obligations.AddDataAppends : Prop :=
  ∀ (s : State) (d l : List Byte), s.Inv → s.inst.constructed = true → d ≠ [] →
    s.inst.live = .ok l → l.length + d.length ≤ s.inst.capacity →
    ∃ t : State, exec (.addData (some d) d.length) s = .next t ∧
      t.result = some (.okValue (.num 0)) ∧ t.pending = s.pending ∧ t.inst.live = .ok (l ++ d) ∧
      t.inst =
        (if s.inst.dataLen + d.length ≤ s.inst.capacity then
          { s.inst with buf := t.inst.buf, dataLen := s.inst.dataLen + d.length }
        else
          { s.inst with buf := t.inst.buf, dataLen := l.length + d.length, offset := 0 }) ∧
      (s.inst.dataLen + d.length ≤ s.inst.capacity → ∀ i,
        t.inst.buf.read? i =
          if s.inst.dataLen ≤ i ∧ i < s.inst.dataLen + d.length then d[i - s.inst.dataLen]?
          else s.inst.buf.read? i) ∧
      (s.inst.capacity < s.inst.dataLen + d.length → ∀ i,
        t.inst.buf.read? i =
          if i < l.length + d.length then (l ++ d)[i]? else s.inst.buf.read? i)

/-- 42 R89 (that the compaction stays done is the spec's decision D13) and the equivalent condition R91:
a chunk that does not fit even after compaction is `BufferFull`; none of it is stored, `LIVE` and the
counters stay, `offset` is 0 afterwards, and cells at and above the live bytes read as before. -/
def Obligations.AddDataBufferFullKeepsLive : Prop :=
  ∀ (s : State) (d l : List Byte), s.Inv → s.inst.constructed = true → d ≠ [] →
    s.inst.live = .ok l → s.inst.capacity < l.length + d.length →
    ∃ t : State, exec (.addData (some d) d.length) s = .next t ∧
      t.result = some (.failed .bufferFull) ∧ t.pending = s.pending ∧ t.inst.live = .ok l ∧
      t.inst = { s.inst with buf := t.inst.buf, dataLen := l.length, offset := 0 } ∧
      ∀ i, l.length ≤ i → t.inst.buf.read? i = s.inst.buf.read? i

/-- 10 R30 (4) and 00 R5 (b), as the model reads them (DEDUCED, notes/assumptions/2.md): a frame arriving
on the wire at a constructed instance with room for it completes, its bytes in wire order behind the live
ones, nothing of it examined; counters, capacity and port stay, and so does every cell outside the bytes
stored (behind `data_len` when the frame fits there, from index 0 on when the live bytes moved first). -/
def Obligations.WireFrameIsAppended : Prop :=
  ∀ (s : State) (length : Word) (payload : List Byte) (crc : Word) (l : List Byte), s.Inv →
    s.inst.constructed = true → payload.length = length.toNat → s.inst.live = .ok l →
    l.length + (payload.length + 6) ≤ s.inst.capacity →
    ∃ t : State, exec (.wireFrame length payload crc) s = .next t ∧
      t.result = some (.okValue (.num 0)) ∧ t.pending = s.pending ∧
      t.inst.live = .ok (l ++ ([0xAA#8, 0x55#8, hi8 length, lo8 length] ++ payload ++
        [hi8 crc, lo8 crc])) ∧
      t.inst =
        (if s.inst.dataLen + (payload.length + 6) ≤ s.inst.capacity then
          { s.inst with buf := t.inst.buf, dataLen := s.inst.dataLen + (payload.length + 6) }
        else
          { s.inst with buf := t.inst.buf, dataLen := l.length + (payload.length + 6), offset := 0 }) ∧
      (s.inst.dataLen + (payload.length + 6) ≤ s.inst.capacity →
        ∀ i, (i < s.inst.dataLen ∨ s.inst.dataLen + (payload.length + 6) ≤ i) →
          t.inst.buf.read? i = s.inst.buf.read? i) ∧
      (s.inst.capacity < s.inst.dataLen + (payload.length + 6) →
        ∀ i, l.length + (payload.length + 6) ≤ i → t.inst.buf.read? i = s.inst.buf.read? i)

/-- 30 R54, "Every byte sequence is legal input to `ADD_DATA`", with the same reading
(notes/assumptions/2.md): a chunk received from the wire, frame or not, does exactly what `ADD_DATA` of its
bytes does. -/
def Obligations.WireBytesAreAddData : Prop :=
  ∀ (s : State) (bytes : List Byte) (rest : List Request), s.pending = .wire bytes :: rest →
    step s = exec (.addData (some bytes) bytes.length) { s with pending := rest }

/-- 42 section 2 (R86, R87; `data_len` after it is marked there as derived): `COMPACT` completes under
the invariant, moves the live bytes to index 0, is overlap-safe (each destination has the byte its source
had before), keeps `LIVE` and every other field, and a second one does nothing. -/
def Obligations.CompactKeepsLive : Prop :=
  ∀ n : Instance, n.Inv →
    ∃ n' : Instance, n.compact = .ok n' ∧
      n' = { n with buf := n'.buf, dataLen := n.dataLen - n.offset, offset := 0 } ∧
      n'.live = n.live ∧ n'.compact = .ok n' ∧
      ∀ i, n'.buf.read? i =
        if i < n.dataLen - n.offset then n.buf.read? (n.offset + i) else n.buf.read? i

/-! ### EXTRACT -/

/-- 43 R100 (the spec's decision D12): an ABSENT output is `InvalidArgument`: no compaction, no cursor
movement, no counter. -/
def Obligations.ExtractRefusesAbsentOutput : Prop :=
  ∀ (s : State) (cap : Nat),
    exec (.extract .absent cap) s = .next { s with result := some (.failed .invalidArgument) }

/-- 43 R99: `EXTRACT` completes, and "Exactly three results are possible". When it is `InvalidArgument`, with
nothing changed, is the spec's decisions D11 (R96) and D12 (R100), notes/assumptions/11.md. Its frame, from
the rules it runs through: constructed, capacity and the port stay, and no cell at or above the number of
live bytes is written. -/
def Obligations.ExtractHasThreeResults : Prop :=
  ∀ (s : State) (output : Presence) (cap : Nat), s.Inv →
    ∃ t : State, exec (.extract output cap) s = .next t ∧ t.pending = s.pending ∧
      t.inst.constructed = s.inst.constructed ∧ t.inst.capacity = s.inst.capacity ∧
      (∀ i, s.inst.dataLen - s.inst.offset ≤ i → t.inst.buf.read? i = s.inst.buf.read? i) ∧
      (((s.inst.constructed = false ∨ output = .absent) ∧ t.inst = s.inst ∧
          t.result = some ⟨.invalidArgument, .num 0, false, []⟩) ∨
       (s.inst.constructed = true ∧ output = .present ∧
          t.inst.packetsReceived = s.inst.packetsReceived ∧
          t.result = some ⟨.ok, .num 0, false, []⟩) ∨
       (s.inst.constructed = true ∧ output = .present ∧
          t.inst.packetsReceived = s.inst.packetsReceived + 1 ∧
          ∃ p : List Byte, p.length ≤ cap ∧ p.length ≤ 65535 ∧
            t.result = some ⟨.ok, .num p.length, true, p⟩))

/-- 43 R101 (inclusive threshold: the spec's decision D22): on entry with `offset ≥ 1024` `EXTRACT` does
what it does after a `COMPACT`; below that the cells are not moved by an emit at the cursor
(`ExtractEmitsValidFrame`). -/
def Obligations.ExtractCompactsOnEntryAt1024 : Prop :=
  ∀ (s : State) (cap : Nat) (n : Instance), s.Inv → s.inst.constructed = true →
    1024 ≤ s.inst.offset → s.inst.compact = .ok n →
    n.offset = 0 ∧ exec (.extract .present cap) s = exec (.extract .present cap) { s with inst := n }

/-- 43 R103, and R110 when nothing is live: with fewer than 4 live bytes `EXTRACT` compacts and answers
"need more data"; the bytes are kept, whatever they are, and no counter moves. -/
def Obligations.ExtractWaitsForHeader : Prop :=
  ∀ (s : State) (cap : Nat) (l : List Byte), s.Inv → s.inst.constructed = true →
    s.inst.live = .ok l → l.length < 4 →
    ∃ t : State, exec (.extract .present cap) s = .next t ∧ t.pending = s.pending ∧
      t.result = some .needMoreData ∧ t.inst.live = .ok l ∧
      t.inst = { s.inst with buf := t.inst.buf, dataLen := l.length, offset := 0 }

/-- 43 R104 (one increment when both bytes are wrong: the spec's decision D28), R121: when the two bytes at
the cursor are not the magic bytes, `EXTRACT` does, for the owner, what it does with `frame_errors` one
higher and the cursor exactly one byte further. -/
def Obligations.MagicMismatchSkipsOneByte : Prop :=
  ∀ (s : State) (cap : Nat) (b0 b1 b2 b3 : Byte) (tail : List Byte), s.Inv →
    s.inst.constructed = true → s.inst.live = .ok (b0 :: b1 :: b2 :: b3 :: tail) →
    (b0 ≠ 0xAA#8 ∨ b1 ≠ 0x55#8) →
    ∃ t t' : State, exec (.extract .present cap) s = .next t ∧
      exec (.extract .present cap)
        { s with inst := { s.inst with
            frameErrors := s.inst.frameErrors + 1, offset := s.inst.offset + 1 } } = .next t' ∧
      t.result = t'.result ∧ t.inst.observe = t'.inst.observe

/-- 43 R106: with the header there but fewer than `total_size` live bytes, `EXTRACT` compacts and answers
"need more data" without advancing: the candidate header is kept, at index 0, and no counter moves,
whatever the output capacity and the capacity of the buffer are. -/
def Obligations.ExtractWaitsForBody : Prop :=
  ∀ (s : State) (cap : Nat) (h l : Byte) (tail : List Byte), s.Inv →
    s.inst.constructed = true → s.inst.live = .ok (0xAA#8 :: 0x55#8 :: h :: l :: tail) →
    (0xAA#8 :: 0x55#8 :: h :: l :: tail).length < 4 + (h.toNat * 256 + l.toNat) + 2 →
    ∃ t : State, exec (.extract .present cap) s = .next t ∧ t.pending = s.pending ∧
      t.result = some .needMoreData ∧
      t.inst.live = .ok (0xAA#8 :: 0x55#8 :: h :: l :: tail) ∧
      t.inst = { s.inst with buf := t.inst.buf, dataLen := tail.length + 4, offset := 0 } ∧
      t.inst.buf.read? 0 = some 0xAA#8 ∧ t.inst.buf.read? 1 = some 0x55#8 ∧
      t.inst.buf.read? 2 = some h ∧ t.inst.buf.read? 3 = some l

/-- 43 R107: with the whole frame there and `output_capacity < Length`, the frame is abandoned, valid or
not: `EXTRACT` does, for the owner, what it does with `frame_errors` one higher and the cursor one byte
further, and the status is `OK`. An output of exactly Length passes: a valid frame is then emitted. -/
def Obligations.SmallOutputSkipsOneByte : Prop :=
  (∀ (s : State) (cap : Nat) (h l : Byte) (tail : List Byte), s.Inv →
    s.inst.constructed = true → s.inst.live = .ok (0xAA#8 :: 0x55#8 :: h :: l :: tail) →
    h.toNat * 256 + l.toNat + 2 ≤ tail.length → cap < h.toNat * 256 + l.toNat →
    ∃ (t t' : State) (r : Result), exec (.extract .present cap) s = .next t ∧
      exec (.extract .present cap)
        { s with inst := { s.inst with
            frameErrors := s.inst.frameErrors + 1, offset := s.inst.offset + 1 } } = .next t' ∧
      t.result = some r ∧ t'.result = some r ∧ r.status = .ok ∧
      t.inst.observe = t'.inst.observe) ∧
  (∀ (s : State) (p after : List Byte), s.Inv → s.inst.constructed = true → p.length ≤ 65535 →
    s.inst.live = .ok (frameOf p ++ after) →
    ∃ t : State, exec (.extract .present p.length) s = .next t ∧
      t.result = some ⟨.ok, .num p.length, true, p⟩)

/-- 43 R108: when the CRC of the payload is not the one received, `EXTRACT` does, for the owner, what it
does with `crc_errors` one higher and the cursor exactly one byte further, not `total_size`; the status
is `OK`, no error goes back to the caller. -/
def Obligations.CrcMismatchSkipsOneByte : Prop :=
  ∀ (s : State) (cap : Nat) (h l ch cl : Byte) (payload after : List Byte), s.Inv →
    s.inst.constructed = true →
    s.inst.live = .ok (0xAA#8 :: 0x55#8 :: h :: l :: (payload ++ ch :: cl :: after)) →
    payload.length = h.toNat * 256 + l.toNat → payload.length ≤ cap →
    (crc16 payload).toNat ≠ ch.toNat * 256 + cl.toNat →
    ∃ (t t' : State) (r : Result), exec (.extract .present cap) s = .next t ∧
      exec (.extract .present cap)
        { s with inst := { s.inst with
            crcErrors := s.inst.crcErrors + 1, offset := s.inst.offset + 1 } } = .next t' ∧
      t.result = some r ∧ t'.result = some r ∧ r.status = .ok ∧
      t.inst.observe = t'.inst.observe

/-- 43 R109 (the `emit` bit is the spec's addition, D14): when the CRC matches, the payload is emitted,
`packets_received` goes up by 1 and the cursor past the frame, for a payload of length 0 too; with
`offset < 1024` nothing else changes and no cell moves. -/
def Obligations.ExtractEmitsValidFrame : Prop :=
  ∀ (s : State) (cap : Nat) (p after : List Byte), s.Inv →
    s.inst.constructed = true → s.inst.live = .ok (frameOf p ++ after) →
    p.length ≤ 65535 → p.length ≤ cap →
    ∃ t : State, exec (.extract .present cap) s = .next t ∧ t.pending = s.pending ∧
      t.result = some ⟨.ok, .num p.length, true, p⟩ ∧
      t.inst.live = .ok after ∧
      t.inst.packetsReceived = s.inst.packetsReceived + 1 ∧
      t.inst.crcErrors = s.inst.crcErrors ∧ t.inst.frameErrors = s.inst.frameErrors ∧
      (s.inst.offset < 1024 →
        t.inst = { s.inst with
          packetsReceived := s.inst.packetsReceived + 1
          offset := s.inst.offset + (4 + p.length + 2) })

/-- 43 R111 (a reading of the spec's own, D29; the points are read off and not stored, DEDUCED,
notes/assumptions/14.md), tied to what `examine` finds at the cursor and what the loop does next. While
`offset < data_len` a turn finds one thing; the control points it passes start at SEARCHING and follow the
table; it ends in RESYNC exactly when it found a counted condition, and the loop then goes on from the
cursor + 1 with that condition's counter + 1 (the bound of the loop, notes/assumptions/13.md, one less);
in EMIT exactly when the loop hands the payload over there and then; and otherwise, in SEARCHING or
AWAITING_BODY, exactly when it compacts and answers "need more data" with no counter moved. When the loop
test fails it is step 3's "need more data". `EXTRACT` is step 1 and then this loop. -/
def Obligations.TurnsFollowTheStateTable : Prop :=
  (∀ (n : Instance) (cap : Nat), n.Inv → n.offset < n.dataLen →
    ∃ v : Verdict, n.examine cap = .ok v ∧
      v.points.head? = some .searching ∧
      v.points.IsChain (fun a b => ExtractPoint.leadsTo a b = true) ∧
      (v.points.getLast? = some .resync ↔ v.condition.isSome = true) ∧
      (v.condition = some .frameSyncError ↔
        Instance.extractLoop cap n.usage n =
          Instance.extractLoop cap (n.usage - 1)
            { n with frameErrors := n.frameErrors + 1, offset := n.offset + 1 }) ∧
      (v.condition = some .crcMismatch ↔
        Instance.extractLoop cap n.usage n =
          Instance.extractLoop cap (n.usage - 1)
            { n with crcErrors := n.crcErrors + 1, offset := n.offset + 1 }) ∧
      (v.points.getLast? = some .emit ↔
        ∃ p : List Byte, Instance.extractLoop cap n.usage n =
          .ok ({ n with
            packetsReceived := n.packetsReceived + 1
            offset := n.offset + (4 + p.length + 2) }, .emitted p)) ∧
      ((v.points.getLast? = some .searching ∨ v.points.getLast? = some .awaitingBody) ↔
        ∃ n' : Instance, n.compact = .ok n' ∧
          Instance.extractLoop cap n.usage n = .ok (n', .needMoreData))) ∧
  (∀ (n : Instance) (cap : Nat), n.Inv → n.offset = n.dataLen →
    ∃ n' : Instance, n.compact = .ok n' ∧
      Instance.extractLoop cap n.usage n = .ok (n', .needMoreData)) ∧
  (∀ (s : State) (cap : Nat), s.inst.constructed = true →
    exec (.extract .present cap) s =
      respond s (s.inst.entryCompact >>= fun n => Instance.extractLoop cap n.usage n))

/-! ### The properties of §8 and the hazards -/

/-- 43 R114: garbage with no `AA 55` in it, in front of a valid frame, is skipped byte by byte: one `EXTRACT`
emits the frame's payload and `frame_errors` has risen by exactly the number of garbage bytes. -/
def Obligations.GarbageIsSkippedExactly : Prop :=
  ∀ (s : State) (cap : Nat) (garbage p after : List Byte), s.Inv → s.inst.constructed = true →
    noMagicPair garbage = true → p.length ≤ 65535 → p.length ≤ cap →
    s.inst.live = .ok (garbage ++ (frameOf p ++ after)) →
    ∃ t : State, exec (.extract .present cap) s = .next t ∧
      t.result = some (.emitted p) ∧ t.inst.live = .ok after ∧
      t.inst.frameErrors = s.inst.frameErrors + garbage.length ∧
      t.inst.crcErrors = s.inst.crcErrors ∧
      t.inst.packetsReceived = s.inst.packetsReceived + 1

/-- 43 R115: a frame with one payload byte changed is never emitted: `crc_errors` rises by 1, its other
bytes are skipped as frame errors when no `AA 55` stands in them, and the valid frame behind it is
emitted by the same `EXTRACT`. -/
def Obligations.DamagedPayloadIsSkipped : Prop :=
  ∀ (s : State) (cap : Nat) (before rest p after : List Byte) (b b' : Byte), s.Inv →
    s.inst.constructed = true → b ≠ b' →
    (before ++ b :: rest).length ≤ 65535 → (before ++ b :: rest).length ≤ cap →
    p.length ≤ 65535 → p.length ≤ cap →
    noMagicPair ((frameBytes (BitVec.ofNat 16 (before ++ b :: rest).length) (before ++ b' :: rest)
      (crc16 (before ++ b :: rest))).drop 1) = true →
    s.inst.live = .ok (frameBytes (BitVec.ofNat 16 (before ++ b :: rest).length)
      (before ++ b' :: rest) (crc16 (before ++ b :: rest)) ++ (frameOf p ++ after)) →
    ∃ t : State, exec (.extract .present cap) s = .next t ∧
      t.result = some (.emitted p) ∧ t.inst.live = .ok after ∧
      t.inst.crcErrors = s.inst.crcErrors + 1 ∧
      t.inst.frameErrors = s.inst.frameErrors + ((before ++ b :: rest).length + 5) ∧
      t.inst.packetsReceived = s.inst.packetsReceived + 1

/-- 43 R116: while only a proper part of a valid frame has arrived, `EXTRACT` answers "need more data", keeps
it, and moves no counter. -/
def Obligations.PartOfAFrameWaits : Prop :=
  ∀ (s : State) (cap : Nat) (p part missing : List Byte), s.Inv → s.inst.constructed = true →
    p.length ≤ 65535 → part ++ missing = frameOf p → missing ≠ [] → s.inst.live = .ok part →
    ∃ t : State, exec (.extract .present cap) s = .next t ∧ t.result = some .needMoreData ∧
      t.inst.live = .ok part ∧ t.inst.packetsReceived = s.inst.packetsReceived ∧
      t.inst.crcErrors = s.inst.crcErrors ∧ t.inst.frameErrors = s.inst.frameErrors

/-- 43 R113 and R116, with the conditions the spec states there: a valid frame cut into any non-empty chunks,
one `ADD_DATA` and one `EXTRACT` for each, into an instance with no live bytes: every `EXTRACT` but the last
answers "need more data", the last emits exactly the payload, and the counters rise by (1, 0, 0). -/
def Obligations.RoundTripInAnyChunks : Prop :=
  ∀ (s : State) (cap : Nat) (p : List Byte) (chunks : List (List Byte)) (last : List Byte), s.Inv →
    s.inst.constructed = true → s.inst.live = .ok [] → p.length ≤ 65535 → p.length ≤ cap →
    p.length + 6 ≤ s.inst.capacity → (∀ c ∈ chunks ++ [last], c ≠ []) →
    (chunks ++ [last]).flatten = frameOf p →
    ∃ t : State,
      runScript ((chunks ++ [last]).flatMap
          (fun c => [.addData (some c) c.length, .extract .present cap])) s =
        .next (t, chunks.flatMap (fun _ => [.okValue (.num 0), .needMoreData]) ++
          [.okValue (.num 0), .emitted p]) ∧
      t.inst.live = .ok [] ∧ t.inst.packetsReceived = s.inst.packetsReceived + 1 ∧
      t.inst.crcErrors = s.inst.crcErrors ∧ t.inst.frameErrors = s.inst.frameErrors

/-- 43 R113 and 30 R62 (`SEND`, `DRAIN`): sending a payload into an instance with no live bytes and draining
gives exactly that payload, then "need more data". -/
def Obligations.SendThenDrainDeliversPayload : Prop :=
  ∀ (s : State) (cap : Nat) (p : List Byte), s.Inv → s.inst.constructed = true →
    s.inst.live = .ok [] → p.length ≤ 65535 → p.length ≤ cap → p.length + 6 ≤ s.inst.capacity →
    ∃ t u : State, ∃ r : Result,
      runScript (scriptSend p) s = .next (t, [r, .okValue (.num 0)]) ∧ r.out = frameOf p ∧
      drain cap t = .next (u, [.emitted p, .needMoreData]) ∧ u.inst.live = .ok [] ∧
      u.inst.packetsReceived = s.inst.packetsReceived + 1 ∧
      u.inst.crcErrors = s.inst.crcErrors ∧ u.inst.frameErrors = s.inst.frameErrors

/-- 43 R112, R119 (marked as derived): in one `EXTRACT` every byte that leaves `LIVE` is counted once as a
one-byte skip or belongs to the emitted frame, and `packets_received` rises by `emit`. -/
def Obligations.ExtractAccountsForEveryByte : Prop :=
  ∀ (s t : State) (output : Presence) (cap : Nat) (r : Result), s.Inv →
    exec (.extract output cap) s = .next t → t.result = some r →
    s.inst.frameErrors ≤ t.inst.frameErrors ∧ s.inst.crcErrors ≤ t.inst.crcErrors ∧
    (s.inst.dataLen - s.inst.offset) =
      (t.inst.dataLen - t.inst.offset) + (t.inst.frameErrors - s.inst.frameErrors) +
        (t.inst.crcErrors - s.inst.crcErrors) + (if r.emit then r.out.length + 6 else 0) ∧
    t.inst.packetsReceived = s.inst.packetsReceived + (if r.emit then 1 else 0)

/-- 43 R120: the buffer model and the stream model give equal results and equal observations after every
command; every well-formed instruction completes under the invariant. -/
def Obligations.BufferModelRefinesStreamModel : Prop :=
  ∀ (i : Instr) (s : State), i.wf = true → s.Inv →
    ∃ v, s.inst.observe = .ok v ∧ v.constructed = s.inst.constructed ∧
      v.capacity = s.inst.capacity ∧ s.inst.live = .ok v.live ∧
      ∃ t : State, exec i s = .next t ∧ t.Inv ∧ t.inst.observe = .ok (v.exec i).1 ∧
        t.result = some (v.exec i).2

/-- 10 R26: "Two instance states that agree on these six give the same result to every command and agree on
them again afterwards, whatever their `offset`, `data_len` and dead buffer bytes". -/
def Obligations.OnlyObservablesMatter : Prop :=
  ∀ (i : Instr) (s s' : State), i.wf = true → s.Inv → s'.Inv → s.inst.observe = s'.inst.observe →
    ∃ t t' : State, exec i s = .next t ∧ exec i s' = .next t' ∧ t.result = t'.result ∧
      t.inst.observe = t'.inst.observe

/-- 60 R133: the instance after a non-`OK` result is the one before the command, except after `BufferFull`,
where a compaction may have been done: `offset = 0`, `LIVE` unchanged. The result carries the status and
nothing else, and the output operand is not written. -/
def Obligations.ErrorsChangeNothing : Prop :=
  ∀ (i : Instr) (s t : State) (r : Result), i.wf = true → s.Inv → exec i s = .next t →
    t.result = some r → r.status ≠ .ok →
    r.value = .num 0 ∧ r.emit = false ∧ r.out = [] ∧
    (t.inst = s.inst ∨
      (r.status = .bufferFull ∧ t.inst.offset = 0 ∧ t.inst.observe = s.inst.observe))

/-- 60 R123 to R129: which instruction can answer which status, and under which condition. `FrameSyncError`
and `CrcMismatch` are never returned. The cases of `InvalidArgument` are in part the spec's decisions: D5
(`FRAME` with an ABSENT output), D7 (`NEW`), D11 (before `NEW`), D12 (`EXTRACT` with an ABSENT output),
notes/assumptions/11.md. That a wire frame answers as `ADD_DATA` is the model's reading
(notes/assumptions/2.md). -/
def Obligations.StatusesComeFromTheirCommands : Prop :=
  ∀ (i : Instr) (s t : State) (r : Result), exec i s = .next t → t.result = some r →
    r.status ≠ .frameSyncError ∧ r.status ≠ .crcMismatch ∧
    (r.status = .payloadTooLarge → ∃ payload len output cap,
      i = .frame payload len output cap ∧ 65535 < len) ∧
    (r.status = .outputTooSmall → ∃ payload len output cap,
      i = .frame payload len output cap ∧ cap < 4 + len + 2) ∧
    (r.status = .bufferFull →
      (∃ data len, i = .addData data len ∧
        s.inst.capacity < (s.inst.dataLen - s.inst.offset) + len) ∨
      ∃ length payload crc, i = .wireFrame length payload crc ∧
        s.inst.capacity < (s.inst.dataLen - s.inst.offset) + (payload.length + 6)) ∧
    (r.status = .invalidArgument →
      (needsConstructed i = true ∧ s.inst.constructed = false) ∨
      (∃ payload len output cap, i = .frame payload len output cap ∧
        ((payload = none ∧ 0 < len) ∨ output = .absent)) ∨
      (∃ data len, i = .addData data len ∧ (data = none ∨ len = 0)) ∨
      (∃ buffer capacity, i = .new buffer capacity ∧ (buffer = .absent ∨ capacity < 256)) ∨
      (∃ cap, i = .extract .absent cap))

/-- 10 R19, 60 R137: the counters are monotonic: nothing but a successful `NEW` lowers one, and nothing
but `EXTRACT` raises one. -/
def Obligations.CountersNeverDecrease : Prop :=
  ∀ (i : Instr) (s t : State), i.wf = true → s.Inv → exec i s = .next t →
    (∀ capacity, i = .new .present capacity → capacity < 256) →
    s.inst.packetsReceived ≤ t.inst.packetsReceived ∧ s.inst.crcErrors ≤ t.inst.crcErrors ∧
    s.inst.frameErrors ≤ t.inst.frameErrors ∧
    ((∀ output cap, i ≠ .extract output cap) →
      t.inst.packetsReceived = s.inst.packetsReceived ∧ t.inst.crcErrors = s.inst.crcErrors ∧
      t.inst.frameErrors = s.inst.frameErrors)

/-- 10 R17, R18: only `NEW` writes `capacity` and `constructed`; no instruction ever clears
`constructed`. -/
def Obligations.OnlyNewSetsCapacity : Prop :=
  ∀ (i : Instr) (s t : State), i.wf = true → s.Inv → exec i s = .next t →
    (s.inst.constructed = true → t.inst.constructed = true) ∧
    ((∀ buffer capacity, i ≠ .new buffer capacity) →
      t.inst.capacity = s.inst.capacity ∧ t.inst.constructed = s.inst.constructed)

/-- 70 R151: a header at the cursor that declares more than the buffer can hold stalls the instance: until a
`RESET` or a successful `NEW`, whatever is asked of it, no live byte is consumed, no counter moves, and every
`EXTRACT` with an output answers "need more data". -/
def Obligations.OversizedHeaderStallsUntilReset : Prop :=
  ∀ (i : Instr) (s t : State) (l : List Byte), i.wf = true → s.Inv → s.inst.constructed = true →
    s.inst.live = .ok l → stalledBytes s.inst.capacity l → exec i s = .next t →
    i ≠ .reset → (∀ capacity, i = .new .present capacity → capacity < 256) →
    (∃ more, t.inst.live = .ok (l ++ more) ∧ stalledBytes t.inst.capacity (l ++ more)) ∧
    t.inst.packetsReceived = s.inst.packetsReceived ∧ t.inst.crcErrors = s.inst.crcErrors ∧
    t.inst.frameErrors = s.inst.frameErrors ∧
    (∀ cap, i = .extract .present cap → t.result = some .needMoreData)

/-- 00 R8, 93 U1 and U4: an instance that fits an implementation's widths, offered an instruction that fits
them (for `ADD_DATA` and a wire frame `capacity + len ≤ 2^IDX_W - 1`), forms no index sum that wraps, and
still fits afterwards, when no counter can reach its end: each has room for the live bytes and one more. -/
def Obligations.WidthsHoldWithCounterRoom : Prop :=
  ∀ (w : Config.Widths) (i : Instr) (s t : State), i.wf = true → s.Inv → s.inst.fitsWidths w →
    operandFits w s.inst.capacity i → exec i s = .next t →
    s.inst.packetsReceived + 1 < 2 ^ w.ctrW - 1 →
    s.inst.crcErrors + (s.inst.dataLen - s.inst.offset) < 2 ^ w.ctrW - 1 →
    s.inst.frameErrors + (s.inst.dataLen - s.inst.offset) < 2 ^ w.ctrW - 1 →
    t.inst.fitsWidths w ∧
    (∀ data len, i = .addData data len → s.inst.dataLen + len ≤ 2 ^ w.idxW - 1) ∧
    (∀ length payload crc, i = .wireFrame length payload crc →
      s.inst.dataLen + (payload.length + 6) ≤ 2 ^ w.idxW - 1) ∧
    (∀ cursor length, cursor ≤ s.inst.dataLen → length ≤ 65535 →
      cursor + (4 + length + 2) ≤ 2 ^ w.idxW - 1)
end

