-- ==== Sys2Proof/Laws/Bytes.lean ====
section
/-! SUPPORT. The small lemmas of the byte-order helpers and of frames as byte lists. -/

namespace Sys2Proof

theorem hi8_toNat (v : Word) : (hi8 v).toNat = v.toNat / 256 := by
  simp only [hi8, BitVec.extractLsb'_toNat, Nat.shiftRight_eq_div_pow]
  have := v.isLt
  omega

theorem lo8_toNat (v : Word) : (lo8 v).toNat = v.toNat % 256 := by
  simp [lo8, BitVec.extractLsb'_toNat]

theorem be16_toNat (h l : Byte) : (be16 h l).toNat = h.toNat * 256 + l.toNat := by
  simp only [be16, BitVec.toNat_ofNat]
  have := h.isLt
  have := l.isLt
  omega

@[simp] theorem be16_hi8_lo8 (v : Word) : be16 (hi8 v) (lo8 v) = v := by
  apply BitVec.eq_of_toNat_eq
  rw [be16_toNat, hi8_toNat, lo8_toNat]
  omega

@[simp] theorem hi8_be16 (h l : Byte) : hi8 (be16 h l) = h := by
  apply BitVec.eq_of_toNat_eq
  rw [hi8_toNat, be16_toNat]
  have := l.isLt
  omega

@[simp] theorem lo8_be16 (h l : Byte) : lo8 (be16 h l) = l := by
  apply BitVec.eq_of_toNat_eq
  rw [lo8_toNat, be16_toNat]
  have := l.isLt
  omega

/-- A 2-byte Length never exceeds the maximum payload (30_encoding.md R49). -/
theorem be16_le_maxPayload (h l : Byte) : (be16 h l).toNat ≤ Config.maxPayload := by
  have := (be16 h l).isLt
  simp only [Config.maxPayload]
  omega

theorem totalSize_eq (length : Nat) : totalSize length = length + 6 := by
  simp only [totalSize, Config.headerSize, Config.crcSize]
  omega

theorem frameBytes_eq (length : Word) (payload : List Byte) (crc : Word) :
    frameBytes length payload crc =
      Config.magic1 :: Config.magic2 :: hi8 length :: lo8 length ::
        (payload ++ [hi8 crc, lo8 crc]) := by
  simp [frameBytes, be16Bytes]

@[simp] theorem frameBytes_length (length : Word) (payload : List Byte) (crc : Word) :
    (frameBytes length payload crc).length = payload.length + 6 := by
  simp [frameBytes_eq]

end Sys2Proof
end

