-- ==== Sys2Proof/Laws/Crc.lean ====
section
/-! SUPPORT. The CRC engine is linear over bitwise XOR (40_crc16.md R67, R72), and the shifts of a
byte that stands in the low half move it up whole. -/

namespace Sys2Proof.Machine

theorem crcShift_xor (x y : Word) : crcShift (x ^^^ y) = crcShift x ^^^ crcShift y := by
  have cancel (a b p : Word) : (a ^^^ p) ^^^ (b ^^^ p) = a ^^^ b := by
    rw [show (a ^^^ p) ^^^ (b ^^^ p) = (a ^^^ b) ^^^ (p ^^^ p) by ac_rfl, BitVec.xor_self,
      BitVec.xor_zero]
  simp only [crcShift, BitVec.msb_xor, BitVec.shiftLeft_xor_distrib]
  generalize x <<< 1 = a
  generalize y <<< 1 = b
  cases x.msb <;> cases y.msb
  · rfl
  · show (a ^^^ b) ^^^ Config.crcPoly = a ^^^ (b ^^^ Config.crcPoly)
    ac_rfl
  · show (a ^^^ b) ^^^ Config.crcPoly = (a ^^^ Config.crcPoly) ^^^ b
    ac_rfl
  · exact (cancel a b _).symm

theorem crcShifts_xor (k : Nat) (x y : Word) :
    Nat.repeat crcShift k (x ^^^ y) = Nat.repeat crcShift k x ^^^ Nat.repeat crcShift k y := by
  induction k with
  | zero => rfl
  | succ k ih => simp only [Nat.repeat, ih, crcShift_xor]

/-- "the low byte of `c` only shifts up by 8 places without meeting the top-bit test" (R67). -/
theorem crcShifts_low (b : Byte) : Nat.repeat crcShift 8 (b.setWidth 16) = b.setWidth 16 <<< 8 := by
  revert b
  decide

/-- A register is its low byte and its high byte. -/
theorem word_split (c : Word) : c = (lo8 c).setWidth 16 ^^^ highByte (hi8 c) := by
  ext i hi
  simp only [BitVec.getElem_xor, highByte, lo8, hi8, BitVec.getElem_setWidth, BitVec.getElem_shiftLeft,
    BitVec.getLsbD_extractLsb']
  by_cases h8 : i < 8
  · simp [h8, BitVec.getLsbD_eq_getElem hi]
  · simp [h8, show 8 + (i - 8) = i by omega, show i - 8 < 8 by omega, BitVec.getLsbD_eq_getElem hi]

theorem highByte_xor (a b : Byte) : highByte (a ^^^ b) = highByte a ^^^ highByte b := by
  simp only [highByte, BitVec.setWidth_xor, BitVec.shiftLeft_xor_distrib]

theorem crc16_append (a b : List Byte) : crc16 (a ++ b) = b.foldl crcByte (crc16 a) := by
  simp [crc16, List.foldl_append]

end Sys2Proof.Machine
end

