-- ==== Sys2Proof/Laws/Decode.lean ====
section
/-! SUPPORT. The reader of each operand form gives back what its writer wrote, and a reader accepts
nothing but what the writer writes. -/

namespace Sys2Proof

theorem ofNat8_toNat {n : Nat} (h : n < 256) : (BitVec.ofNat 8 n).toNat = n := by
  simp only [BitVec.toNat_ofNat]
  omega

theorem takeNat_cons_small {b : Byte} {rest : List Byte} (h : b.toNat < 128) :
    takeNat (b :: rest) = .ok (b.toNat, rest) := by
  simp [takeNat, h]

theorem takeNat_cons_more {b : Byte} {rest rest' : List Byte} {hi : Nat} (h : ¬b.toNat < 128)
    (hr : takeNat rest = .ok (hi, rest')) (hhi : hi ≠ 0) :
    takeNat (b :: rest) = .ok (b.toNat - 128 + 128 * hi, rest') := by
  simp [takeNat, h, hr, hhi]

theorem takeNat_encodeNatFuel {fuel n : Nat} (h : n ≤ fuel) (rest : List Byte) :
    takeNat (encodeNatFuel fuel n ++ rest) = .ok (n, rest) := by
  induction fuel generalizing n with
  | zero =>
    obtain rfl : n = 0 := by omega
    rfl
  | succ fuel ih =>
    simp only [encodeNatFuel]
    split
    · rw [List.singleton_append, takeNat_cons_small (by rw [ofNat8_toNat] <;> omega),
        ofNat8_toNat (by omega)]
    · have hb : (BitVec.ofNat 8 (128 + n % 128)).toNat = 128 + n % 128 := ofNat8_toNat (by omega)
      rw [List.cons_append, takeNat_cons_more (by omega) (ih (n := n / 128) (by omega)) (by omega), hb]
      congr 2
      omega

/-- A natural reads back, with every operand value it can have. -/
theorem takeNat_encodeNat (n : Nat) (rest : List Byte) :
    takeNat (encodeNat n ++ rest) = .ok (n, rest) := takeNat_encodeNatFuel (Nat.le_refl n) rest

theorem encodeNatFuel_eq {f g n : Nat} (hf : n ≤ f) (hg : n ≤ g) :
    encodeNatFuel f n = encodeNatFuel g n := by
  induction f generalizing g n with
  | zero =>
    obtain rfl : n = 0 := by omega
    cases g <;> rfl
  | succ f ih =>
    cases g with
    | zero =>
      obtain rfl : n = 0 := by omega
      rfl
    | succ g =>
      simp only [encodeNatFuel]
      split
      · rfl
      · rw [ih (g := g) (n := n / 128) (by omega) (by omega)]

theorem encodeNat_small {n : Nat} (h : n < 128) : encodeNat n = [BitVec.ofNat 8 n] := by
  cases n with
  | zero => rfl
  | succ n => simp [encodeNat, encodeNatFuel, h]

theorem encodeNat_more {n : Nat} (h : ¬n < 128) :
    encodeNat n = BitVec.ofNat 8 (128 + n % 128) :: encodeNat (n / 128) := by
  cases n with
  | zero => omega
  | succ n =>
    simp only [encodeNat, encodeNatFuel, if_neg h]
    rw [encodeNatFuel_eq (g := (n + 1) / 128) (by omega) (Nat.le_refl _)]

/-- The bytes a natural was read from are the ones it is written with. -/
theorem takeNat_ok {bytes rest : List Byte} {n : Nat} (h : takeNat bytes = .ok (n, rest)) :
    bytes = encodeNat n ++ rest := by
  induction bytes generalizing n rest with
  | nil => cases h
  | cons b tail ih =>
    have hb := b.isLt
    simp only [takeNat] at h
    split at h
    · cases h
      rename_i hlt
      rw [encodeNat_small hlt]
      simp
    · split at h
      · cases h
      · rename_i hi rest' hr
        split at h
        · cases h
        · cases h
          rename_i hge hne
          rw [ih hr, encodeNat_more (n := b.toNat - 128 + 128 * hi) (by omega)]
          have h1 : (b.toNat - 128 + 128 * hi) / 128 = hi := by omega
          have h2 : 128 + (b.toNat - 128 + 128 * hi) % 128 = b.toNat := by omega
          rw [h1, h2]
          simp

theorem takePresence_encode (p : Presence) (rest : List Byte) :
    takePresence (encodePresence p :: rest) = .ok (p, rest) := by
  cases p <;> rfl

theorem takePresence_ok {bytes rest : List Byte} {p : Presence}
    (h : takePresence bytes = .ok (p, rest)) : bytes = encodePresence p :: rest := by
  cases bytes with
  | nil => cases h
  | cons b tail =>
    simp only [takePresence] at h
    split at h
    · cases h
      subst_vars
      rfl
    · split at h
      · cases h
        subst_vars
        rfl
      · cases h

theorem takeBytes_append (d rest : List Byte) :
    takeBytes d.length (d ++ rest) = .ok (d, rest) := by
  simp [takeBytes]

theorem takeBytes_ok {n : Nat} {bytes d rest : List Byte} (h : takeBytes n bytes = .ok (d, rest)) :
    d.length = n ∧ bytes = d ++ rest := by
  simp only [takeBytes] at h
  split at h
  · cases h
  · cases h
    simp only [List.length_take, List.take_append_drop, and_true]
    omega

theorem reject_bind_ok {α β : Type} (a : α) (f : α → Except Reject β) :
    (Except.ok a >>= f) = f a := rfl

theorem reject_bind_eq_ok {α β : Type} {x : Except Reject α} {f : α → Except Reject β} {b : β}
    (h : (x >>= f) = .ok b) : ∃ a, x = .ok a ∧ f a = .ok b := by
  cases x with
  | error e => cases h
  | ok a => exact ⟨a, rfl, h⟩

theorem takeInput_encode {data : Option (List Byte)} {len : Nat}
    (h : inputLengthOk data len = true) (rest : List Byte) :
    takeInput (encodeInput data len ++ rest) = .ok ((data, len), rest) := by
  cases data with
  | none =>
    simp only [encodeInput, List.cons_append, takeInput, takePresence_encode, reject_bind_ok,
      takeNat_encodeNat]
  | some d =>
    have hd : d.length = len := by simpa [inputLengthOk] using h
    subst hd
    simp only [encodeInput, List.cons_append, List.append_assoc, takeInput, takePresence_encode,
      reject_bind_ok, takeNat_encodeNat, takeBytes_append]

theorem takeInput_ok {bytes rest : List Byte} {data : Option (List Byte)} {len : Nat}
    (h : takeInput bytes = .ok ((data, len), rest)) :
    inputLengthOk data len = true ∧ bytes = encodeInput data len ++ rest := by
  obtain ⟨⟨p, r1⟩, h1, h⟩ := reject_bind_eq_ok h
  obtain ⟨⟨n, r2⟩, h2, h⟩ := reject_bind_eq_ok h
  have e1 := takePresence_ok h1
  have e2 := takeNat_ok h2
  cases p with
  | absent =>
    cases h
    exact ⟨rfl, by rw [e1, e2]; rfl⟩
  | present =>
    obtain ⟨⟨d, r3⟩, h3, h⟩ := reject_bind_eq_ok h
    cases h
    obtain ⟨hd, e3⟩ := takeBytes_ok h3
    exact ⟨by simpa [inputLengthOk] using hd, by rw [e1, e2, e3]; simp [encodeInput]⟩

theorem takeRegion_encode (p : Presence) (n : Nat) (rest : List Byte) :
    takeRegion (encodeRegion p n ++ rest) = .ok ((p, n), rest) := by
  simp only [encodeRegion, List.cons_append, takeRegion, takePresence_encode, reject_bind_ok,
    takeNat_encodeNat]

theorem takeRegion_ok {bytes rest : List Byte} {p : Presence} {n : Nat}
    (h : takeRegion bytes = .ok ((p, n), rest)) : bytes = encodeRegion p n ++ rest := by
  obtain ⟨⟨q, r1⟩, h1, h⟩ := reject_bind_eq_ok h
  obtain ⟨⟨k, r2⟩, h2, h⟩ := reject_bind_eq_ok h
  cases h
  rw [takePresence_ok h1, takeNat_ok h2]
  rfl

theorem endOfImage_ok {i j : Instr} {rest : List Byte} (h : endOfImage i rest = .ok j) :
    rest = [] ∧ i = j := by
  simp only [endOfImage] at h
  split at h
  · cases h
    exact ⟨by assumption, rfl⟩
  · cases h

/-- A frame of the format reads back (30_encoding.md R47). -/
theorem decodeWire_frameBytes {length : Word} {payload : List Byte} {crc : Word}
    (h : payload.length = length.toNat) :
    decodeWire (frameBytes length payload crc) = .ok (.wireFrame length payload crc) := by
  rw [frameBytes_eq]
  simp [decodeWire, ← h]

/-- What the wire decoder accepts is one frame of the format, and nothing else. -/
theorem decodeWire_ok {bytes : List Byte} {i : Instr} (h : decodeWire bytes = .ok i) :
    ∃ length payload crc, i = .wireFrame length payload crc ∧ payload.length = length.toNat ∧
      bytes = frameBytes length payload crc := by
  unfold decodeWire at h
  split at h
  · rename_i m1 m2 hb lb rest
    split at h
    · rename_i hm
      split at h
      · rename_i ch cl hdrop
        cases h
        have hlen := congrArg List.length hdrop
        simp only [List.length_drop, List.length_cons, List.length_nil] at hlen
        refine ⟨_, _, _, rfl, by rw [List.length_take]; omega, ?_⟩
        rw [frameBytes_eq, hm.1, hm.2, hi8_be16, lo8_be16, hi8_be16, lo8_be16, ← hdrop,
          List.take_append_drop]
      · cases h
    · cases h
  · cases h

end Sys2Proof
end

