-- ==== Sys2Proof/Laws/Memory.lean ====
section
/-! SUPPORT. The laws of the buffer's contents as a list: a read after a write, and that a write keeps
the one form. -/

namespace Sys2Proof.Machine

/-- A write is seen at its index and nowhere else. -/
theorem Memory.read?_write (m : Memory) (i k : Nat) (v : Byte) :
    (Memory.write m i v).read? k = if i = k then some v else m.read? k := by
  induction m with
  | nil => simp [Memory.write, Memory.read?]
  | cons c m ih =>
    obtain ⟨j, b⟩ := c
    simp only [Memory.write]
    split
    · simp [Memory.read?]
    · split
      · subst_vars
        simp only [Memory.read?]
        split <;> rfl
      · simp only [Memory.read?, ih]
        split
        · subst_vars
          rw [if_neg (by assumption)]
        · rfl

theorem Memory.mem_write {m : Memory} {i : Nat} {v : Byte} {c : Host.Cell}
    (h : c ∈ Memory.write m i v) : c = (i, v) ∨ c ∈ m := by
  induction m with
  | nil => simpa [Memory.write] using h
  | cons d m ih =>
    obtain ⟨j, b⟩ := d
    simp only [Memory.write] at h
    split at h
    · simpa using h
    · split at h
      · rcases List.mem_cons.mp h with h | h
        · exact .inl h
        · exact .inr (List.mem_cons_of_mem _ h)
      · rcases List.mem_cons.mp h with h | h
        · exact .inr (h ▸ List.mem_cons_self)
        · exact (ih h).imp_right (List.mem_cons_of_mem _)

/-- A write keeps the indices strictly rising. -/
theorem Memory.wf_write {m : Memory} (h : m.wf) (i : Nat) (v : Byte) : (Memory.write m i v).wf := by
  induction m with
  | nil => simp [Memory.write, Memory.wf]
  | cons c m ih =>
    obtain ⟨j, b⟩ := c
    obtain ⟨hj, hm⟩ := List.pairwise_cons.mp h
    simp only [Memory.write]
    split
    · rename_i hij
      refine List.pairwise_cons.mpr ⟨fun d hd => ?_, h⟩
      rcases List.mem_cons.mp hd with rfl | hd
      · exact hij
      · exact Nat.lt_trans hij (hj d hd)
    · split
      · subst_vars
        exact List.pairwise_cons.mpr ⟨hj, hm⟩
      · refine List.pairwise_cons.mpr ⟨fun d hd => ?_, ih hm⟩
        rcases Memory.mem_write hd with rfl | hd
        · show j < i
          omega
        · exact hj d hd

/-- What every buffer operation keeps of the contents: the one form, inside `0 .. capacity-1`. -/
def Memory.Within (capacity : Nat) (m : Memory) : Prop := m.wf ∧ ∀ c ∈ m, c.1 < capacity

theorem Memory.within_write {capacity : Nat} {m : Memory} (h : m.Within capacity) {i : Nat}
    (hi : i < capacity) (v : Byte) : (Memory.write m i v).Within capacity := by
  refine ⟨Memory.wf_write h.1 i v, fun c hc => ?_⟩
  rcases Memory.mem_write hc with rfl | hc
  · exact hi
  · exact h.2 c hc

end Sys2Proof.Machine
end

