-- ==== Sys2Proof/Laws/State.lean ====
section
/-! SUPPORT. One lemma per field per update, and what `respond`, `raise` and `ret` hand back. -/

namespace Sys2Proof.Machine

/-! ### Results -/

@[simp] theorem respond_ok (s : State) (n : Instance) (r : Result) :
    respond s (.ok (n, r)) = .next { s with inst := n, result := some r } := rfl

@[simp] theorem respond_error (s : State) (f : Fault) : respond s (.error f) = .fault f := rfl

@[simp] theorem raise_eq (n : Instance) (st : Status) : raise n st = .ok (n, .failed st) := rfl

@[simp] theorem ret_eq (n : Instance) (v : Value) : ret n v = .ok (n, .okValue v) := rfl

@[simp] theorem except_bind_ok {α β : Type} (a : α) (f : α → Except Fault β) :
    (Except.ok a >>= f) = f a := rfl

@[simp] theorem except_bind_error {α β : Type} (e : Fault) (f : α → Except Fault β) :
    ((Except.error e : Except Fault α) >>= f) = Except.error e := rfl

@[simp] theorem failed_status (st : Status) : (Result.failed st).status = st := rfl
@[simp] theorem failed_value (st : Status) : (Result.failed st).value = .num 0 := rfl
@[simp] theorem failed_emit (st : Status) : (Result.failed st).emit = false := rfl
@[simp] theorem failed_out (st : Status) : (Result.failed st).out = [] := rfl
@[simp] theorem okValue_status (v : Value) : (Result.okValue v).status = .ok := rfl
@[simp] theorem okValue_value (v : Value) : (Result.okValue v).value = v := rfl
@[simp] theorem okValue_emit (v : Value) : (Result.okValue v).emit = false := rfl
@[simp] theorem okValue_out (v : Value) : (Result.okValue v).out = [] := rfl
@[simp] theorem needMoreData_status : Result.needMoreData.status = .ok := rfl
@[simp] theorem needMoreData_value : Result.needMoreData.value = .num 0 := rfl
@[simp] theorem needMoreData_emit : Result.needMoreData.emit = false := rfl
@[simp] theorem needMoreData_out : Result.needMoreData.out = [] := rfl
@[simp] theorem written_status (b : List Byte) : (Result.written b).status = .ok := rfl
@[simp] theorem written_value (b : List Byte) : (Result.written b).value = .num b.length := rfl
@[simp] theorem written_emit (b : List Byte) : (Result.written b).emit = false := rfl
@[simp] theorem written_out (b : List Byte) : (Result.written b).out = b := rfl
@[simp] theorem emitted_status (p : List Byte) : (Result.emitted p).status = .ok := rfl
@[simp] theorem emitted_value (p : List Byte) : (Result.emitted p).value = .num p.length := rfl
@[simp] theorem emitted_emit (p : List Byte) : (Result.emitted p).emit = true := rfl
@[simp] theorem emitted_out (p : List Byte) : (Result.emitted p).out = p := rfl

/-! ### The three counter updates -/

@[simp] theorem countPacket_constructed (n : Instance) : n.countPacket.constructed = n.constructed := rfl
@[simp] theorem countPacket_capacity (n : Instance) : n.countPacket.capacity = n.capacity := rfl
@[simp] theorem countPacket_buf (n : Instance) : n.countPacket.buf = n.buf := rfl
@[simp] theorem countPacket_dataLen (n : Instance) : n.countPacket.dataLen = n.dataLen := rfl
@[simp] theorem countPacket_offset (n : Instance) : n.countPacket.offset = n.offset := rfl
@[simp] theorem countPacket_packetsReceived (n : Instance) :
    n.countPacket.packetsReceived = n.packetsReceived + 1 := rfl
@[simp] theorem countPacket_crcErrors (n : Instance) : n.countPacket.crcErrors = n.crcErrors := rfl
@[simp] theorem countPacket_frameErrors (n : Instance) : n.countPacket.frameErrors = n.frameErrors := rfl

@[simp] theorem countCrcError_constructed (n : Instance) :
    n.countCrcError.constructed = n.constructed := rfl
@[simp] theorem countCrcError_capacity (n : Instance) : n.countCrcError.capacity = n.capacity := rfl
@[simp] theorem countCrcError_buf (n : Instance) : n.countCrcError.buf = n.buf := rfl
@[simp] theorem countCrcError_dataLen (n : Instance) : n.countCrcError.dataLen = n.dataLen := rfl
@[simp] theorem countCrcError_offset (n : Instance) : n.countCrcError.offset = n.offset := rfl
@[simp] theorem countCrcError_packetsReceived (n : Instance) :
    n.countCrcError.packetsReceived = n.packetsReceived := rfl
@[simp] theorem countCrcError_crcErrors (n : Instance) :
    n.countCrcError.crcErrors = n.crcErrors + 1 := rfl
@[simp] theorem countCrcError_frameErrors (n : Instance) :
    n.countCrcError.frameErrors = n.frameErrors := rfl

@[simp] theorem countFrameError_constructed (n : Instance) :
    n.countFrameError.constructed = n.constructed := rfl
@[simp] theorem countFrameError_capacity (n : Instance) : n.countFrameError.capacity = n.capacity := rfl
@[simp] theorem countFrameError_buf (n : Instance) : n.countFrameError.buf = n.buf := rfl
@[simp] theorem countFrameError_dataLen (n : Instance) : n.countFrameError.dataLen = n.dataLen := rfl
@[simp] theorem countFrameError_offset (n : Instance) : n.countFrameError.offset = n.offset := rfl
@[simp] theorem countFrameError_packetsReceived (n : Instance) :
    n.countFrameError.packetsReceived = n.packetsReceived := rfl
@[simp] theorem countFrameError_crcErrors (n : Instance) :
    n.countFrameError.crcErrors = n.crcErrors := rfl
@[simp] theorem countFrameError_frameErrors (n : Instance) :
    n.countFrameError.frameErrors = n.frameErrors + 1 := rfl

/-! ### The one-byte advance -/

@[simp] theorem advanceOne_constructed (n : Instance) : n.advanceOne.constructed = n.constructed := rfl
@[simp] theorem advanceOne_capacity (n : Instance) : n.advanceOne.capacity = n.capacity := rfl
@[simp] theorem advanceOne_buf (n : Instance) : n.advanceOne.buf = n.buf := rfl
@[simp] theorem advanceOne_dataLen (n : Instance) : n.advanceOne.dataLen = n.dataLen := rfl
@[simp] theorem advanceOne_offset (n : Instance) : n.advanceOne.offset = n.offset + 1 := rfl
@[simp] theorem advanceOne_packetsReceived (n : Instance) :
    n.advanceOne.packetsReceived = n.packetsReceived := rfl
@[simp] theorem advanceOne_crcErrors (n : Instance) : n.advanceOne.crcErrors = n.crcErrors := rfl
@[simp] theorem advanceOne_frameErrors (n : Instance) : n.advanceOne.frameErrors = n.frameErrors := rfl

/-! ### Power-on, a fresh instance, the port -/

@[simp] theorem reset_inst : State.reset.inst = .powerOn := rfl
@[simp] theorem reset_pending : State.reset.pending = [] := rfl
@[simp] theorem reset_result : State.reset.result = none := rfl
@[simp] theorem powerOn_constructed : Instance.powerOn.constructed = false := rfl
@[simp] theorem fresh_constructed (c : Nat) : (Instance.fresh c).constructed = true := rfl
@[simp] theorem fresh_capacity (c : Nat) : (Instance.fresh c).capacity = c := rfl
@[simp] theorem fresh_buf (c : Nat) : (Instance.fresh c).buf = [] := rfl
@[simp] theorem fresh_dataLen (c : Nat) : (Instance.fresh c).dataLen = 0 := rfl
@[simp] theorem fresh_offset (c : Nat) : (Instance.fresh c).offset = 0 := rfl
@[simp] theorem withFetchWord_inst (s : State) (nbits w : Nat) : (s.withFetchWord nbits w).inst = s.inst := rfl
@[simp] theorem withFetchWord_pending (s : State) (nbits w : Nat) :
    (s.withFetchWord nbits w).pending = tableRequest nbits w :: s.pending := rfl

/-! ### What one step can do -/

theorem step_idle {s : State} (h : s.pending = []) : step s = .next s := by
  simp [step, h]

theorem step_decoded {s : State} {r : Request} {rest : List Request} {i : Instr}
    (h : s.pending = r :: rest) (hd : decode r = .ok i) :
    step s = exec i { s with pending := rest } := by
  simp [step, h, hd]

theorem step_rejected {s : State} {r : Request} {rest : List Request} {e : Reject}
    (h : s.pending = r :: rest) (hd : decode r = .error e) :
    step s = handleReject (requestBytes r) e { s with pending := rest } := by
  simp [step, h, hd]

end Sys2Proof.Machine
end

