-- ==== Sys2Proof/Laws/Ops.lean ====
section
/-! SUPPORT. One specification lemma per shared operation: what a buffer read gives, what a store, a
move, `COMPACT` and an append leave. Later proofs cite these and do not unfold the operations. -/

namespace Sys2Proof.Machine

/-- The cells from `addr` on are in range and hold the bytes `l`. -/
def Instance.Holds (n : Instance) (addr : Nat) (l : List Byte) : Prop :=
  ∀ j (h : j < l.length), addr + j < n.capacity ∧ n.buf.read? (addr + j) = some l[j]

/-! ### Reads -/

theorem readByte_of_read {n : Instance} {i : Nat} {b : Byte} (hi : i < n.capacity)
    (hb : n.buf.read? i = some b) : n.readByte i = .ok b := by
  simp [Instance.readByte, hi, hb]

theorem readByte_ok_iff {n : Instance} {i : Nat} {b : Byte} :
    n.readByte i = .ok b ↔ i < n.capacity ∧ n.buf.read? i = some b := by
  simp only [Instance.readByte]
  split
  · cases n.buf.read? i <;> simp_all
  · simp_all

theorem holds_nil (n : Instance) (addr : Nat) : n.Holds addr [] := fun j h => by simp at h

theorem holds_cons {n : Instance} {addr : Nat} {b : Byte} {l : List Byte} :
    n.Holds addr (b :: l) ↔
      (addr < n.capacity ∧ n.buf.read? addr = some b) ∧ n.Holds (addr + 1) l := by
  constructor
  · intro h
    refine ⟨h 0 (Nat.succ_pos _), fun j hj => ?_⟩
    have := h (j + 1) (by simpa using hj)
    simpa [Nat.add_assoc, Nat.add_comm 1 j] using this
  · rintro ⟨h0, h1⟩ j hj
    cases j with
    | zero => simpa using h0
    | succ j =>
      have := h1 j (by simpa using hj)
      simpa [Nat.add_assoc, Nat.add_comm 1 j] using this

theorem holds_append {n : Instance} {addr : Nat} {l r : List Byte} :
    n.Holds addr (l ++ r) ↔ n.Holds addr l ∧ n.Holds (addr + l.length) r := by
  induction l generalizing addr with
  | nil => simp [holds_nil]
  | cons b l ih =>
    simp only [List.cons_append, holds_cons, ih, List.length_cons, and_assoc]
    rw [show addr + 1 + l.length = addr + (l.length + 1) by omega]

/-- `MemBytes` gives exactly the bytes the cells hold. -/
theorem memBytes_ok_iff {n : Instance} {addr count : Nat} {l : List Byte} :
    n.memBytes addr count = .ok l ↔ l.length = count ∧ n.Holds addr l := by
  induction count generalizing addr l with
  | zero =>
    simp only [Instance.memBytes, Except.ok.injEq]
    constructor
    · rintro rfl
      exact ⟨rfl, holds_nil _ _⟩
    · rintro ⟨h, -⟩
      exact (List.eq_nil_of_length_eq_zero h).symm
  | succ count ih =>
    simp only [Instance.memBytes]
    cases l with
    | nil =>
      simp only [List.length_nil]
      constructor
      · cases n.readByte addr <;> simp
        cases n.memBytes (addr + 1) count <;> simp
      · rintro ⟨h, -⟩
        omega
    | cons b l =>
      simp only [holds_cons, List.length_cons, Nat.add_right_cancel_iff, ← readByte_ok_iff]
      rw [show (l.length = count ∧ n.readByte addr = .ok b ∧ n.Holds (addr + 1) l) ↔
        (n.readByte addr = .ok b ∧ n.memBytes (addr + 1) count = .ok l) by rw [ih]; tauto]
      cases n.readByte addr <;> simp
      cases n.memBytes (addr + 1) count <;> simp

theorem memBytes_of_holds {n : Instance} {addr : Nat} {l : List Byte} (h : n.Holds addr l) :
    n.memBytes addr l.length = .ok l := memBytes_ok_iff.mpr ⟨rfl, h⟩

theorem memRead16_of_holds {n : Instance} {addr : Nat} {h l : Byte} {rest : List Byte}
    (hh : n.Holds addr (h :: l :: rest)) : n.memRead16 addr = .ok (be16 h l) := by
  obtain ⟨⟨h1, h2⟩, h3⟩ := holds_cons.mp hh
  obtain ⟨⟨h4, h5⟩, -⟩ := holds_cons.mp h3
  simp [Instance.memRead16, readByte_of_read h1 h2, readByte_of_read h4 h5]

/-- The live bytes are `l`. -/
theorem live_ok_iff {n : Instance} {l : List Byte} :
    n.live = .ok l ↔ l.length = n.usage ∧ n.Holds n.offset l := memBytes_ok_iff

/-- Under the invariant the live bytes can be read (20_memory.md R38). -/
theorem Instance.Inv.live_ok {n : Instance} (hn : n.Inv) : ∃ l, n.live = .ok l := by
  have key : ∀ count addr, n.offset ≤ addr → addr + count ≤ n.dataLen →
      ∃ l, n.memBytes addr count = .ok l := by
    intro count
    induction count with
    | zero => exact fun addr _ _ => ⟨[], rfl⟩
    | succ count ih =>
      intro addr h1 h2
      obtain ⟨l, hl⟩ := ih (addr + 1) (by omega) (by omega)
      obtain ⟨b, hb⟩ := Option.isSome_iff_exists.mp (hn.liveWritten addr h1 (by omega))
      have hc : addr < n.capacity := by have := hn.dataLenLe; omega
      exact ⟨b :: l, by simp [Instance.memBytes, readByte_of_read hc hb, hl]⟩
  have := hn.offsetLe
  exact key n.usage n.offset (Nat.le_refl _) (by simp only [Instance.usage]; omega)

/-! ### Stores -/

/-- What a store of a byte sequence leaves: the bytes at their indices, every other cell as before. -/
theorem writeBytes_spec {n : Instance} {addr : Nat} {bs : List Byte}
    (hcap : bs = [] ∨ addr + bs.length ≤ n.capacity) :
    ∃ m, n.writeBytes addr bs = .ok { n with buf := m } ∧
      (∀ i, m.read? i =
        if addr ≤ i ∧ i < addr + bs.length then bs[i - addr]? else n.buf.read? i) ∧
      (n.buf.Within n.capacity → m.Within n.capacity) := by
  induction bs generalizing n addr with
  | nil =>
    refine ⟨n.buf, rfl, fun i => ?_, id⟩
    rw [if_neg (by simp)]
  | cons b bs ih =>
    have hlen : addr + (bs.length + 1) ≤ n.capacity := by simpa using hcap
    have ha : addr < n.capacity := by omega
    obtain ⟨m, hm, hread, hwithin⟩ :=
      ih (n := { n with buf := n.buf.write addr b }) (addr := addr + 1) (.inr (by simp; omega))
    refine ⟨m, by simpa [Instance.writeBytes, Instance.writeByte, ha] using hm, fun i => ?_,
      fun h => hwithin (Memory.within_write h ha b)⟩
    rw [hread, Memory.read?_write]
    simp only [List.length_cons]
    by_cases hi : addr = i
    · subst hi
      rw [if_neg (by omega), if_pos (by omega)]
      simp
    · by_cases h1 : addr ≤ i ∧ i < addr + (bs.length + 1)
      · rw [if_pos (by omega), if_pos h1, show i - addr = (i - (addr + 1)) + 1 by omega]
        simp
      · rw [if_neg (by omega), if_neg h1, if_neg hi]

/-- What the ascending move leaves: each destination has the byte its source had BEFORE the move
began (20_memory.md R39), every other cell is as before. -/
theorem moveDown_spec {n : Instance} {src count k : Nat}
    (hsrc : ∀ i, k ≤ i → i < k + count →
      src + i < n.capacity ∧ (n.buf.read? (src + i)).isSome) :
    ∃ m, n.moveDown src count k = .ok { n with buf := m } ∧
      (∀ i, m.read? i =
        if k ≤ i ∧ i < k + count then n.buf.read? (src + i) else n.buf.read? i) ∧
      (n.buf.Within n.capacity → m.Within n.capacity) := by
  induction count generalizing n k with
  | zero =>
    refine ⟨n.buf, rfl, fun i => ?_, id⟩
    rw [if_neg (by omega)]
  | succ count ih =>
    obtain ⟨hk, hsome⟩ := hsrc k (Nat.le_refl _) (by omega)
    obtain ⟨b, hb⟩ := Option.isSome_iff_exists.mp hsome
    have hkc : k < n.capacity := by omega
    obtain ⟨m, hm, hread, hwithin⟩ := ih (n := { n with buf := n.buf.write k b }) (k := k + 1)
      (fun i h1 h2 => by
        have := hsrc i (by omega) (by omega)
        refine ⟨this.1, ?_⟩
        rw [Memory.read?_write]
        split
        · rfl
        · exact this.2)
    refine ⟨m, by simpa [Instance.moveDown, Instance.writeByte, readByte_of_read hk hb, hkc] using hm,
      fun i => ?_, fun h => hwithin (Memory.within_write h hkc b)⟩
    rw [hread]
    simp only [Memory.read?_write]
    by_cases hi : k = i
    · subst hi
      rw [if_neg (by omega), if_pos rfl, if_pos (by omega), hb]
    · by_cases h1 : k ≤ i ∧ i < k + (count + 1)
      · rw [if_pos (by omega), if_pos h1, if_neg (by omega)]
      · rw [if_neg (by omega), if_neg h1, if_neg hi]

/-- All `COMPACT` does, whatever the cursor: the live bytes at index 0, `data_len` the usage, the
cursor 0; cells at and above the usage, the counters and the rest are as before (R86, R87). -/
theorem compact_spec {n : Instance} (hn : n.Inv) :
    ∃ m, n.compact = .ok { n with buf := m, dataLen := n.usage, offset := 0 } ∧
      (∀ i, m.read? i =
        if i < n.usage then n.buf.read? (n.offset + i) else n.buf.read? i) ∧
      m.Within n.capacity := by
  have hoff := hn.offsetLe
  have hdl := hn.dataLenLe
  simp only [Instance.compact]
  split
  · obtain ⟨m, hm, hread, hwithin⟩ := moveDown_spec (n := n) (src := n.offset) (count := n.usage)
      (k := 0) (fun i _ h2 => by
        simp only [Instance.usage] at h2
        exact ⟨by omega, hn.liveWritten _ (by omega) (by omega)⟩)
    refine ⟨m, by simp [hm], fun i => ?_, hwithin ⟨hn.bufWf, hn.cellsInRange⟩⟩
    rw [hread]
    simp
  · rename_i h0
    have h0 : n.offset = 0 := by omega
    refine ⟨n.buf, ?_, fun i => ?_, hn.bufWf, hn.cellsInRange⟩
    · obtain ⟨c, cap, buf, dl, off, p, ce, fe⟩ := n
      simp only at h0
      subst h0
      simp [Instance.usage]
    · rw [h0]
      simp

end Sys2Proof.Machine
end

