-- ==== Sys2Proof/Laws/Extract.lean ====
section
/-! SUPPORT. `COMPACT` keeps the live bytes, one turn of the `EXTRACT` loop read off the live bytes,
and the loop equal to the stream model's (43_reconstructor_extract.md R120). -/

namespace Sys2Proof.Machine

/-! ### `COMPACT` and the live bytes -/

/-- The instance after `COMPACT`, `m` being the cells it leaves. -/
def Instance.compacted (n : Instance) (m : Memory) : Instance :=
  { n with buf := m, dataLen := n.usage, offset := 0 }

@[simp] theorem compacted_constructed (n : Instance) (m : Memory) :
    (n.compacted m).constructed = n.constructed := rfl
@[simp] theorem compacted_capacity (n : Instance) (m : Memory) :
    (n.compacted m).capacity = n.capacity := rfl
@[simp] theorem compacted_buf (n : Instance) (m : Memory) : (n.compacted m).buf = m := rfl
@[simp] theorem compacted_dataLen (n : Instance) (m : Memory) :
    (n.compacted m).dataLen = n.usage := rfl
@[simp] theorem compacted_offset (n : Instance) (m : Memory) : (n.compacted m).offset = 0 := rfl
@[simp] theorem compacted_usage (n : Instance) (m : Memory) : (n.compacted m).usage = n.usage := rfl
@[simp] theorem compacted_packetsReceived (n : Instance) (m : Memory) :
    (n.compacted m).packetsReceived = n.packetsReceived := rfl
@[simp] theorem compacted_crcErrors (n : Instance) (m : Memory) :
    (n.compacted m).crcErrors = n.crcErrors := rfl
@[simp] theorem compacted_frameErrors (n : Instance) (m : Memory) :
    (n.compacted m).frameErrors = n.frameErrors := rfl

theorem usage_le_capacity {n : Instance} (hn : n.Inv) : n.usage ≤ n.capacity := by
  have := hn.dataLenLe
  simp only [Instance.usage]
  omega

/-- `COMPACT` always completes under the invariant, keeps it, keeps the live bytes, and leaves the
cells at and above the usage alone (R86, R87). -/
theorem compact_ok {n : Instance} (hn : n.Inv) :
    ∃ m, n.compact = .ok (n.compacted m) ∧ (n.compacted m).Inv ∧
      (∀ l, n.live = .ok l → (n.compacted m).live = .ok l) ∧
      (∀ i, n.usage ≤ i → m.read? i = n.buf.read? i) := by
  obtain ⟨m, hm, hread, hwithin⟩ := compact_spec hn
  have hcap := usage_le_capacity hn
  refine ⟨m, hm, ?_, fun l hl => ?_, fun i hi => by rw [hread, if_neg (by omega)]⟩
  · refine ⟨hwithin.1, hwithin.2, by simp, by simpa using hcap, fun i _ h2 => ?_, hn.capacityLegal⟩
    simp only [compacted_dataLen] at h2
    simp only [compacted_buf, hread]
    rw [if_pos h2]
    simp only [Instance.usage] at h2
    exact hn.liveWritten _ (by omega) (by omega)
  · obtain ⟨hlen, hholds⟩ := live_ok_iff.mp hl
    refine live_ok_iff.mpr ⟨hlen, fun j hj => ?_⟩
    simp only [compacted_offset, Nat.zero_add, compacted_capacity, compacted_buf, hread]
    rw [if_pos (by omega)]
    exact ⟨by omega, (hholds j hj).2⟩

/-! ### What is observable -/

/-- The observation of an instance whose live bytes are `l`. -/
def Instance.view (n : Instance) (l : List Byte) : StreamState where
  constructed := n.constructed
  capacity := n.capacity
  live := l
  packetsReceived := n.packetsReceived
  crcErrors := n.crcErrors
  frameErrors := n.frameErrors

theorem observe_of_live {n : Instance} {l : List Byte} (h : n.live = .ok l) :
    n.observe = .ok (n.view l) := by
  simp [Instance.observe, h, Instance.view]

theorem observe_ok_iff {n : Instance} {t : StreamState} :
    n.observe = .ok t ↔ n.live = .ok t.live ∧ t = n.view t.live := by
  constructor
  · intro h
    cases hl : n.live with
    | error e => simp [Instance.observe, hl] at h
    | ok l =>
      rw [observe_of_live hl] at h
      cases h
      exact ⟨rfl, rfl⟩
  · rintro ⟨h, ht⟩
    rw [observe_of_live h, ← ht]

/-! ### One turn of the loop, read off the live bytes -/

/-- What steps 2a to 2f find, as a function of the live bytes. -/
def listVerdict (outputCapacity : Nat) : List Byte → Verdict
  | m1 :: m2 :: h :: l :: tail =>
    if m1 ≠ Config.magic1 ∨ m2 ≠ Config.magic2 then .badMagic
    else
      match tail.drop (be16 h l).toNat with
      | ch :: cl :: _ =>
        if outputCapacity < (be16 h l).toNat then .outputTooSmall
        else if crc16 (tail.take (be16 h l).toNat) ≠ be16 ch cl then .crcMismatch
        else .emit (tail.take (be16 h l).toNat)
      | _ => .bodyIncomplete
  | _ => .headerIncomplete

theorem listVerdict_short {outputCapacity : Nat} {l : List Byte} (h : l.length < 4) :
    listVerdict outputCapacity l = .headerIncomplete := by
  match l, h with
  | [], _ => rfl
  | [_], _ => rfl
  | [_, _], _ => rfl
  | [_, _, _], _ => rfl
  | _ :: _ :: _ :: _ :: _, h => simp only [List.length_cons] at h; omega

/-- `EXTRACT` reads only the live bytes (20_memory.md R38, R39). -/
theorem examine_spec {n : Instance} {l : List Byte} (outputCapacity : Nat)
    (hlen : l.length = n.usage) (hl : n.Holds n.offset l) :
    n.examine outputCapacity = .ok (listVerdict outputCapacity l) := by
  by_cases h4 : l.length < 4
  · rw [listVerdict_short h4]
    simp [Instance.examine, Config.headerSize, ← hlen, h4]
  obtain ⟨m1, m2, h, lo, tail, rfl⟩ : ∃ m1 m2 h lo tail, l = m1 :: m2 :: h :: lo :: tail := by
    match l, h4 with
    | m1 :: m2 :: h :: lo :: tail, _ => exact ⟨m1, m2, h, lo, tail, rfl⟩
    | [], h => simp at h
    | [_], h => simp at h
    | [_, _], h => simp at h
    | [_, _, _], h => simp at h
  obtain ⟨⟨c1, r1⟩, hl1⟩ := holds_cons.mp hl
  obtain ⟨⟨c2, r2⟩, hl2⟩ := holds_cons.mp hl1
  have hlenField : n.memRead16 n.lengthAddr = .ok (be16 h lo) :=
    memRead16_of_holds (addr := n.offset + 2) hl2
  have htail : n.Holds n.payloadAddr tail := (holds_cons.mp (holds_cons.mp hl2).2).2
  simp only [List.length_cons] at hlen
  simp only [Instance.examine, Config.headerSize, ← hlen, if_neg (show ¬tail.length + 1 + 1 + 1 + 1 < 4 by omega),
    Instance.magic1Addr, Instance.magic2Addr, readByte_of_read c1 r1, readByte_of_read c2 r2,
    except_bind_ok, listVerdict]
  split
  · rfl
  simp only [Instance.examineCandidate, hlenField, except_bind_ok,
    if_neg (Nat.not_lt.mpr (be16_le_maxPayload h lo)), totalSize_eq, ← hlen]
  generalize (be16 h lo).toNat = len
  by_cases hlt : tail.length < len + 2
  · rw [if_pos (by omega)]
    split
    · rename_i hdrop
      have := congrArg List.length hdrop
      simp only [List.length_drop, List.length_cons] at this
      omega
    · rfl
  · rw [if_neg (by omega)]
    obtain ⟨ch, cl, after, hdrop⟩ : ∃ ch cl after, tail.drop len = ch :: cl :: after := by
      have hd : 2 ≤ (tail.drop len).length := by simp only [List.length_drop]; omega
      match hdrop : tail.drop len, hd with
      | ch :: cl :: after, _ => exact ⟨ch, cl, after, rfl⟩
      | [_], h => simp at h
      | [], h => simp at h
    simp only [hdrop, Instance.validate]
    split
    · rfl
    rw [← List.take_append_drop len tail] at htail
    obtain ⟨hpay, hcrc⟩ := holds_append.mp htail
    have htake : (tail.take len).length = len := by rw [List.length_take]; omega
    rw [htake, hdrop] at hcrc
    have hp : n.memBytes n.payloadAddr len = .ok (tail.take len) := memBytes_ok_iff.mpr ⟨htake, hpay⟩
    have hc : n.memRead16 (n.crcAddr len) = .ok (be16 ch cl) := memRead16_of_holds (rest := after) hcrc
    simp only [hp, hc, except_bind_ok]
    split <;> rfl

/-! ### The stream model by verdict -/

/-- One turn of the stream model's loop. -/
theorem stream_extractLoop_cons (outputCapacity : Nat) (b : Byte) (rest : List Byte) (t : StreamState) :
    StreamState.extractLoop outputCapacity (b :: rest) t =
      match listVerdict outputCapacity (b :: rest) with
      | .headerIncomplete => ({ t with live := b :: rest }, .needMoreData)
      | .badMagic =>
        StreamState.extractLoop outputCapacity rest { t with frameErrors := t.frameErrors + 1 }
      | .lengthTooLarge => ({ t with live := b :: rest }, .needMoreData)
      | .bodyIncomplete => ({ t with live := b :: rest }, .needMoreData)
      | .outputTooSmall =>
        StreamState.extractLoop outputCapacity rest { t with frameErrors := t.frameErrors + 1 }
      | .crcMismatch =>
        StreamState.extractLoop outputCapacity rest { t with crcErrors := t.crcErrors + 1 }
      | .emit p =>
        ({ t with live := (b :: rest).drop (p.length + 6), packetsReceived := t.packetsReceived + 1 },
          .emitted p) := by
  match rest with
  | [] => simp [StreamState.extractLoop, listVerdict]
  | [_] => simp [StreamState.extractLoop, listVerdict]
  | [_, _] => simp [StreamState.extractLoop, listVerdict]
  | m2 :: h :: l :: tail =>
    rw [StreamState.extractLoop]
    simp only [listVerdict]
    split
    · rfl
    · generalize (be16 h l).toNat = len
      cases hdrop : tail.drop len with
      | nil => rfl
      | cons ch more =>
        cases more with
        | nil => rfl
        | cons cl after =>
          dsimp only
          split
          · rfl
          · split
            · rfl
            · have hge : len + 2 ≤ tail.length := by
                have := congrArg List.length hdrop
                simp only [List.length_drop, List.length_cons] at this
                omega
              have : after = (b :: m2 :: h :: l :: tail).drop ((tail.take len).length + 6) := by
                rw [List.length_take, Nat.min_eq_left (by omega)]
                show after = tail.drop (len + 2)
                rw [← List.drop_drop, hdrop]
                rfl
              rw [this]

/-- A turn of the loop that is not the last leaves `lengthTooLarge` out: it is never found (R105). -/
theorem listVerdict_ne_lengthTooLarge (outputCapacity : Nat) (l : List Byte) :
    listVerdict outputCapacity l ≠ .lengthTooLarge := by
  unfold listVerdict
  split
  · split
    · simp
    · split
      · split
        · simp
        · split <;> simp
      · simp
  · simp

/-- A payload found at the cursor has its whole frame in the live bytes (R106, R109). -/
theorem listVerdict_emit_length {outputCapacity : Nat} {l p : List Byte}
    (h : listVerdict outputCapacity l = .emit p) :
    p.length + 6 ≤ l.length ∧ p.length ≤ outputCapacity := by
  unfold listVerdict at h
  split at h
  · split at h
    · cases h
    · split at h
      · split at h
        · cases h
        · split at h
          · cases h
          · rename_i hdrop _ _
            cases h
            have := congrArg List.length hdrop
            simp only [List.length_drop, List.length_cons] at this
            simp only [List.length_take, List.length_cons]
            omega
      · cases h
  · cases h

/-! ### The loop -/

/-- An instance that differs only in its counters and in a cursor moved within the live bytes keeps
the invariant. -/
theorem Instance.Inv.advance {n : Instance} (hn : n.Inv) {n' : Instance} {k : Nat}
    (hk : k ≤ n.usage) (hc : n'.constructed = n.constructed) (hcap : n'.capacity = n.capacity)
    (hbuf : n'.buf = n.buf) (hdl : n'.dataLen = n.dataLen) (hoff : n'.offset = n.offset + k) :
    n'.Inv := by
  have h1 := hn.offsetLe
  simp only [Instance.usage] at hk
  refine ⟨hbuf ▸ hn.bufWf, ?_, by omega, by rw [hdl, hcap]; exact hn.dataLenLe, ?_, ?_⟩
  · rw [hbuf, hcap]
    exact hn.cellsInRange
  · intro i hi1 hi2
    rw [hbuf]
    exact hn.liveWritten i (by omega) (by omega)
  · rw [hc, hcap]
    exact hn.capacityLegal

/-- The live bytes after the cursor has moved by `k`. -/
theorem live_advance {n n' : Instance} {l : List Byte} {k : Nat} (hl : n.live = .ok l)
    (hk : k ≤ l.length) (hcap : n'.capacity = n.capacity) (hbuf : n'.buf = n.buf)
    (hdl : n'.dataLen = n.dataLen) (hoff : n'.offset = n.offset + k) :
    n'.live = .ok (l.drop k) := by
  obtain ⟨hlen, hholds⟩ := live_ok_iff.mp hl
  simp only [Instance.usage] at hlen
  refine live_ok_iff.mpr ⟨by simp only [List.length_drop, Instance.usage]; omega, fun j hj => ?_⟩
  simp only [List.length_drop] at hj
  have := hholds (k + j) (by omega)
  rw [hcap, hbuf, hoff, List.getElem_drop, Nat.add_assoc]
  exact this

/-- The loop of `EXTRACT` completes under the invariant, keeps it, stores nothing at or above the
usage, and answers as the stream model does (R120, R38). -/
theorem extractLoop_spec (outputCapacity : Nat) {l : List Byte} {n : Instance} (x : List Byte)
    (hn : n.Inv) (hl : n.live = .ok l) :
    ∃ n' r, Instance.extractLoop outputCapacity l.length n = .ok (n', r) ∧ n'.Inv ∧
      n'.observe = .ok (StreamState.extractLoop outputCapacity l (n.view x)).1 ∧
      r = (StreamState.extractLoop outputCapacity l (n.view x)).2 ∧
      (∀ i, n.usage ≤ i → n'.buf.read? i = n.buf.read? i) := by
  have stop : ∀ {l : List Byte} {n : Instance} (x : List Byte), n.Inv → n.live = .ok l →
      ∃ n', n.needMoreData = .ok (n', .needMoreData) ∧ n'.Inv ∧
        n'.observe = .ok { n.view x with live := l } ∧
        (∀ i, n.usage ≤ i → n'.buf.read? i = n.buf.read? i) := by
    intro l n x hn hl
    obtain ⟨m, hm, hinv, hlive, hframe⟩ := compact_ok hn
    exact ⟨n.compacted m, by simp [Instance.needMoreData, hm], hinv, observe_of_live (hlive l hl),
      hframe⟩
  induction l generalizing n x with
  | nil =>
    obtain ⟨n', h1, h2, h3, h4⟩ := stop x hn hl
    exact ⟨n', _, h1, h2, h3, rfl, h4⟩
  | cons b rest ih =>
    obtain ⟨hlen, hholds⟩ := live_ok_iff.mp hl
    have hpos : n.offset < n.dataLen := by
      simp only [Instance.usage, List.length_cons] at hlen
      omega
    have advance : ∀ n1 : Instance, n1.constructed = n.constructed → n1.capacity = n.capacity →
        n1.buf = n.buf → n1.dataLen = n.dataLen → n1.offset = n.offset + 1 →
        ∃ n' r, Instance.extractLoop outputCapacity rest.length n1 = .ok (n', r) ∧ n'.Inv ∧
          n'.observe = .ok (StreamState.extractLoop outputCapacity rest (n1.view x)).1 ∧
          r = (StreamState.extractLoop outputCapacity rest (n1.view x)).2 ∧
          (∀ i, n.usage ≤ i → n'.buf.read? i = n.buf.read? i) := by
      intro n1 hc hcap hbuf hdl hoff
      have hu : 1 ≤ n.usage := by simp only [List.length_cons] at hlen; omega
      have hl1 : n1.live = .ok rest := by
        simpa using live_advance (k := 1) hl (by simp) hcap hbuf hdl hoff
      obtain ⟨n', r, h1, h2, h3, h4, h5⟩ := ih x (hn.advance hu hc hcap hbuf hdl hoff) hl1
      refine ⟨n', r, h1, h2, h3, h4, fun i hi => ?_⟩
      rw [h5 i (by simp only [Instance.usage] at *; omega), hbuf]
    rw [stream_extractLoop_cons]
    simp only [List.length_cons, Instance.extractLoop, if_pos hpos,
      examine_spec outputCapacity hlen hholds, except_bind_ok]
    cases hv : listVerdict outputCapacity (b :: rest) with
    | headerIncomplete =>
      obtain ⟨n', h1, h2, h3, h4⟩ := stop x hn hl
      exact ⟨n', _, h1, h2, h3, rfl, h4⟩
    | bodyIncomplete =>
      obtain ⟨n', h1, h2, h3, h4⟩ := stop x hn hl
      exact ⟨n', _, h1, h2, h3, rfl, h4⟩
    | badMagic => exact advance n.countFrameError.advanceOne rfl rfl rfl rfl rfl
    | outputTooSmall => exact advance n.countFrameError.advanceOne rfl rfl rfl rfl rfl
    | crcMismatch => exact advance n.countCrcError.advanceOne rfl rfl rfl rfl rfl
    | lengthTooLarge => exact absurd hv (listVerdict_ne_lengthTooLarge _ _)
    | emit p =>
      obtain ⟨hp, -⟩ := listVerdict_emit_length hv
      refine ⟨_, _, rfl, ?_, ?_, rfl, fun i _ => rfl⟩
      · exact hn.advance (k := p.length + 6) (by omega) rfl rfl rfl rfl (by rw [← totalSize_eq])
      · exact observe_of_live (live_advance hl hp rfl rfl rfl (by rw [← totalSize_eq]))

/-- All a turn of the loop can do, by what it finds at the cursor (R102 to R109). -/
theorem extractLoop_turn {n : Instance} {outputCapacity : Nat} {v : Verdict}
    (h : n.offset < n.dataLen) (hv : n.examine outputCapacity = .ok v) :
    Instance.extractLoop outputCapacity n.usage n =
      match (generalizing := false) v with
      | .headerIncomplete => n.needMoreData
      | .badMagic => Instance.extractLoop outputCapacity (n.usage - 1) n.countFrameError.advanceOne
      | .lengthTooLarge => Instance.extractLoop outputCapacity (n.usage - 1) n.countFrameError.advanceOne
      | .bodyIncomplete => n.needMoreData
      | .outputTooSmall => Instance.extractLoop outputCapacity (n.usage - 1) n.countFrameError.advanceOne
      | .crcMismatch => Instance.extractLoop outputCapacity (n.usage - 1) n.countCrcError.advanceOne
      | .emit payload => n.emitPayload payload := by
  obtain ⟨k, hk⟩ : ∃ k, n.usage = k + 1 := ⟨n.usage - 1, by simp only [Instance.usage]; omega⟩
  rw [hk, Instance.extractLoop, if_pos h, hv, except_bind_ok]
  cases v <;> rfl

/-- Step 1 changes nothing observable (R101, R87). -/
theorem entryCompact_spec {n : Instance} (hn : n.Inv) :
    ∃ n', n.entryCompact = .ok n' ∧ n'.Inv ∧ (∀ l, n.live = .ok l → n'.live = .ok l) ∧
      n'.usage = n.usage ∧ (∀ l, n'.view l = n.view l) ∧
      (∀ i, n.usage ≤ i → n'.buf.read? i = n.buf.read? i) := by
  simp only [Instance.entryCompact]
  split
  · obtain ⟨m, hm, hinv, hlive, hframe⟩ := compact_ok hn
    exact ⟨n.compacted m, hm, hinv, hlive, rfl, fun _ => rfl, hframe⟩
  · exact ⟨n, rfl, hn, fun _ => id, rfl, fun _ => rfl, fun _ _ => rfl⟩

/-- All `EXTRACT` can do under the invariant: it completes, keeps the invariant, answers as the stream
model, and stores nothing at or above the usage it was entered with. -/
theorem extract_spec {n : Instance} {t : StreamState} (output : Presence) (outputCapacity : Nat)
    (hn : n.Inv) (ht : n.observe = .ok t) :
    ∃ n' r, n.extract output outputCapacity = .ok (n', r) ∧ n'.Inv ∧
      n'.observe = .ok (t.exec (.extract output outputCapacity)).1 ∧
      r = (t.exec (.extract output outputCapacity)).2 ∧
      (∀ i, n.usage ≤ i → n'.buf.read? i = n.buf.read? i) := by
  obtain ⟨hl, htv⟩ := observe_ok_iff.mp ht
  have hcon : t.constructed = n.constructed := by rw [htv]; rfl
  simp only [Instance.extract, StreamState.exec, hcon]
  split
  · exact ⟨n, _, rfl, hn, ht, rfl, fun _ _ => rfl⟩
  · obtain ⟨n1, h1, hinv1, hlive1, hu1, hview1, hframe1⟩ := entryCompact_spec hn
    obtain ⟨n', r, h2, hinv2, hobs2, hr2, hframe2⟩ :=
      extractLoop_spec outputCapacity t.live hinv1 (hlive1 _ hl)
    have hlen : n1.usage = t.live.length := by rw [hu1, ← (live_ok_iff.mp hl).1]
    rw [hview1, ← htv] at hobs2 hr2
    exact ⟨n', r, by simp [h1, hlen, h2], hinv2, hobs2, hr2, fun i hi => by
      rw [hframe2 i (by omega), hframe1 i hi]⟩

end Sys2Proof.Machine
end

