-- ==== Sys2Proof/Laws/PerInstr.lean ====
section
/-! SUPPORT. Facts about the instruction as syntax, one lemma per constructor.

Family `TableRow`: the request that encodes an instruction carries its row's fixed bits of
spec/opcode_table.json: the command byte under mask 0xFF (30_encoding.md R55), or the header word
under mask 0xFFFF0000 (R47). -/

namespace Sys2Proof.Laws

/-- The `match` column of the instruction's row. -/
def rowMatch : Instr → Nat
  | .crc16 _ => 0x01
  | .frame _ _ _ _ => 0x02
  | .new _ _ => 0x10
  | .addData _ _ => 0x11
  | .extract _ _ => 0x12
  | .reset => 0x13
  | .usage => 0x14
  | .stats => 0x15
  | .wireFrame _ _ _ => 0xAA550000

/-- The request's table word under the mask of its format. -/
def maskedWord : Request → Option Nat
  | .command (op :: _) => some (op.toNat &&& 0xFF)
  | .command [] => none
  | .wire (a :: b :: c :: d :: _) =>
    some (((a ++ b) ++ (c ++ d) : BitVec 32) &&& 0xFFFF0000#32).toNat
  | .wire _ => none

/-- The fixed bits of the row stand in the encoding. -/
def TableRow.Statement (i : Instr) : Prop := maskedWord (encode i) = some (rowMatch i)

theorem TableRow.crc16 (data : List Byte) : TableRow.Statement (.crc16 data) := rfl

theorem TableRow.frame (payload : Option (List Byte)) (payloadLen : Nat) (output : Presence)
    (outputCapacity : Nat) : TableRow.Statement (.frame payload payloadLen output outputCapacity) := rfl

theorem TableRow.new (buffer : Presence) (capacity : Nat) :
    TableRow.Statement (.new buffer capacity) := rfl

theorem TableRow.addData (data : Option (List Byte)) (len : Nat) :
    TableRow.Statement (.addData data len) := rfl

theorem TableRow.extract (output : Presence) (outputCapacity : Nat) :
    TableRow.Statement (.extract output outputCapacity) := rfl

theorem TableRow.reset : TableRow.Statement .reset := rfl

theorem TableRow.usage : TableRow.Statement .usage := rfl

theorem TableRow.stats : TableRow.Statement .stats := rfl

theorem TableRow.wireFrame (length : Word) (payload : List Byte) (crc : Word) :
    TableRow.Statement (.wireFrame length payload crc) := by
  have h : (((Config.magic1 ++ Config.magic2) ++ (hi8 length ++ lo8 length) : BitVec 32) &&&
      0xFFFF0000#32) = 0xAA550000#32 := by
    ext i hi
    simp only [BitVec.getElem_and, BitVec.getElem_append]
    interval_cases i <;> simp [Config.magic1, Config.magic2]
  exact congrArg (fun v : BitVec 32 => some v.toNat) h

end Sys2Proof.Laws
end

