-- ==== Sys2Proof/Laws/Receive.lean ====
section
/-! SUPPORT. What appending received bytes leaves (42_reconstructor_buffer.md R88 to R91). -/

namespace Sys2Proof.Machine

/-- The instance after an append, `m` being the cells it leaves. -/
def Instance.appended (n : Instance) (m : Memory) (len : Nat) : Instance :=
  { n with buf := m, dataLen := n.dataLen + len }

@[simp] theorem appended_constructed (n : Instance) (m : Memory) (len : Nat) :
    (n.appended m len).constructed = n.constructed := rfl
@[simp] theorem appended_capacity (n : Instance) (m : Memory) (len : Nat) :
    (n.appended m len).capacity = n.capacity := rfl
@[simp] theorem appended_buf (n : Instance) (m : Memory) (len : Nat) : (n.appended m len).buf = m := rfl
@[simp] theorem appended_dataLen (n : Instance) (m : Memory) (len : Nat) :
    (n.appended m len).dataLen = n.dataLen + len := rfl
@[simp] theorem appended_offset (n : Instance) (m : Memory) (len : Nat) :
    (n.appended m len).offset = n.offset := rfl

theorem inputBytes_some {d : List Byte} {len : Nat} (h : d.length = len) :
    inputBytes (some d) len = d := by
  simp [inputBytes, ← h]

/-- An append with room completes, keeps the invariant, puts the bytes behind the live ones, and
touches no cell outside the new ones (R90). -/
theorem appendBytes_spec {n : Instance} {bs : List Byte} (hn : n.Inv)
    (hroom : n.dataLen + bs.length ≤ n.capacity) :
    ∃ m, n.appendBytes bs bs.length = .ok (n.appended m bs.length, .okValue (.num 0)) ∧
      (n.appended m bs.length).Inv ∧
      (∀ l, n.live = .ok l → (n.appended m bs.length).live = .ok (l ++ bs)) ∧
      (∀ i, m.read? i =
        if n.dataLen ≤ i ∧ i < n.dataLen + bs.length then bs[i - n.dataLen]? else n.buf.read? i) := by
  obtain ⟨m, hm, hread, hwithin⟩ := writeBytes_spec (n := n) (addr := n.dataLen) (.inr hroom)
  have hw := hwithin ⟨hn.bufWf, hn.cellsInRange⟩
  have hoff := hn.offsetLe
  refine ⟨m, by simp [Instance.appendBytes, hm, Instance.appended], ?_, fun l hl => ?_, hread⟩
  · refine ⟨hw.1, hw.2, by simp only [appended_offset, appended_dataLen]; omega, hroom,
      fun i h1 h2 => ?_, hn.capacityLegal⟩
    simp only [appended_offset, appended_dataLen] at h1 h2
    simp only [appended_buf, hread]
    split
    · rw [List.getElem?_eq_getElem (by omega)]
      rfl
    · exact hn.liveWritten i h1 (by omega)
  · obtain ⟨hlen, hholds⟩ := live_ok_iff.mp hl
    simp only [Instance.usage] at hlen
    have hlen' : (l ++ bs).length = (n.appended m bs.length).usage := by
      simp only [List.length_append, Instance.usage, appended_dataLen, appended_offset]
      omega
    refine live_ok_iff.mpr ⟨hlen', fun j hj => ?_⟩
    simp only [List.length_append] at hj
    simp only [appended_offset, appended_capacity, appended_buf, hread]
    refine ⟨by omega, ?_⟩
    by_cases hjl : j < l.length
    · rw [if_neg (by omega), List.getElem_append_left hjl]
      exact (hholds j hjl).2
    · rw [if_pos (by omega), List.getElem_append_right (by omega),
        List.getElem?_eq_getElem (by omega)]
      congr 2
      omega

/-- All `ADD_DATA` can do under the invariant (R88 to R91): it completes, keeps the invariant and
answers as the stream model. -/
theorem receive_spec {n : Instance} {t : StreamState} {data : Option (List Byte)} {len : Nat}
    (hn : n.Inv) (ht : n.observe = .ok t) (hwf : inputLengthOk data len = true) :
    ∃ n' r, n.receive data len = .ok (n', r) ∧ n'.Inv ∧
      n'.observe = .ok (t.receive data len).1 ∧ r = (t.receive data len).2 := by
  obtain ⟨hl, htv⟩ := observe_ok_iff.mp ht
  have hcon : t.constructed = n.constructed := by rw [htv]; rfl
  have hcap : t.capacity = n.capacity := by rw [htv]; rfl
  have hlen := (live_ok_iff.mp hl).1
  simp only [Instance.receive, StreamState.receive, hcon, hcap]
  by_cases hc : n.constructed = false
  · simp only [hc, if_true, true_or]
    exact ⟨n, _, rfl, hn, ht, rfl⟩
  by_cases ha : data = none ∨ len = 0
  · rw [if_neg hc, if_pos ha, if_pos (.inr ha)]
    exact ⟨n, _, rfl, hn, ht, rfl⟩
  rw [if_neg hc, if_neg ha, if_neg (show ¬(n.constructed = false ∨ data = none ∨ len = 0) by tauto)]
  obtain ⟨d, rfl⟩ : ∃ d, data = some d := by
    cases data with
    | none => simp at ha
    | some d => exact ⟨d, rfl⟩
  have hd : d.length = len := by simpa [inputLengthOk] using hwf
  subst hd
  rw [inputBytes_some rfl]
  have hoff := hn.offsetLe
  have hu : n.usage ≤ n.dataLen := by simp only [Instance.usage]; omega
  split
  · obtain ⟨m, hm, hinv, hlive, -⟩ := compact_ok hn
    simp only [hm, except_bind_ok, hlen]
    by_cases hfull : n.usage + d.length > n.capacity
    · rw [if_pos (show (n.compacted m).dataLen + d.length > (n.compacted m).capacity from hfull),
        if_pos hfull]
      refine ⟨_, _, rfl, hinv, ?_, rfl⟩
      rw [observe_of_live (hlive _ hl)]
      exact congrArg _ htv.symm
    · rw [if_neg (show ¬(n.compacted m).dataLen + d.length > (n.compacted m).capacity from hfull),
        if_neg hfull]
      obtain ⟨m', hm', hinv', hlive', -⟩ := appendBytes_spec (bs := d) hinv
        (by simp only [compacted_dataLen, compacted_capacity]; omega)
      refine ⟨_, _, hm', hinv', ?_, rfl⟩
      rw [observe_of_live (hlive' _ (hlive _ hl)), htv]
      rfl
  · rename_i hroom
    rw [if_neg (show ¬t.live.length + d.length > n.capacity by omega)]
    obtain ⟨m', hm', hinv', hlive', -⟩ := appendBytes_spec (bs := d) hn (by omega)
    refine ⟨_, _, hm', hinv', ?_, rfl⟩
    rw [observe_of_live (hlive' _ hl), htv]
    rfl

end Sys2Proof.Machine
end

