-- ==== Sys2Proof/Tests/Slice0.lean ====
section
/-! SUPPORT. Tests and witnesses. Expected results of the tests are the spec's own vectors
(spec/95_test_vectors.md, named in the comment of each test) or words written out from 30_encoding.md.
A theorem `witness_<Obligation>…` shows a state and operands that meet all hypotheses of one statement
together, at a boundary where its clauses meet. -/

namespace Sys2Proof.Tests

open Sys2Proof Sys2Proof.Machine

/-! ### Small states -/

/-- Cells from index `k` on. -/
def cells : Nat → List Byte → Memory
  | _, [] => []
  | k, b :: bs => (k, b) :: cells (k + 1) bs

/-- `<n>x<byte>` of 30_encoding.md R61. -/
def many (n : Nat) (b : Byte) : List Byte := List.replicate n b

@[simp] theorem many_length (n : Nat) (b : Byte) : (many n b).length = n := List.length_replicate

theorem many_ne_nil {n : Nat} (b : Byte) (h : 0 < n) : many n b ≠ [] := by
  intro he
  have := congrArg List.length he
  simp only [many_length, List.length_nil] at this
  omega

/-- A constructed instance: `dead` consumed bytes, then the live bytes `l`, counters (5, 2, 3). -/
def filled (capacity : Nat) (dead l : List Byte) : State where
  inst :=
    { constructed := true, capacity := capacity, buf := cells 0 (dead ++ l)
      dataLen := dead.length + l.length, offset := dead.length
      packetsReceived := 5, crcErrors := 2, frameErrors := 3 }
  pending := []
  result := none

theorem cells_read? (k : Nat) (l : List Byte) (i : Nat) :
    (cells k l).read? i = if k ≤ i then l[i - k]? else none := by
  induction l generalizing k with
  | nil => simp [cells, Memory.read?]
  | cons b bs ih =>
    simp only [cells, Memory.read?, ih]
    by_cases h : k = i
    · subst h
      simp
    · by_cases h1 : k ≤ i
      · rw [if_neg h, if_pos (by omega), if_pos h1, show i - k = (i - (k + 1)) + 1 by omega]
        simp
      · rw [if_neg h, if_neg (by omega), if_neg h1]

theorem cells_within (k : Nat) (l : List Byte) :
    (cells k l).wf ∧ ∀ c ∈ cells k l, k ≤ c.1 ∧ c.1 < k + l.length := by
  induction l generalizing k with
  | nil => simp [cells, Memory.wf]
  | cons b bs ih =>
    obtain ⟨h1, h2⟩ := ih (k + 1)
    refine ⟨List.pairwise_cons.mpr ⟨fun c hc => (h2 c hc).1, h1⟩, fun c hc => ?_⟩
    rcases List.mem_cons.mp hc with rfl | hc
    · simp
    · have := h2 c hc
      simp only [List.length_cons]
      omega

theorem filled_inv {capacity : Nat} {dead l : List Byte} (hc : 256 ≤ capacity)
    (h : dead.length + l.length ≤ capacity) : (filled capacity dead l).Inv := by
  obtain ⟨h1, h2⟩ := cells_within 0 (dead ++ l)
  refine ⟨h1, fun c hcell => ?_, Nat.le_add_right _ _, h, fun i _ hi => ?_, fun _ => hc⟩
  · have := (h2 c hcell).2
    simp only [List.length_append] at this
    show c.1 < capacity
    omega
  · change i < dead.length + l.length at hi
    show ((cells 0 (dead ++ l)).read? i).isSome = true
    rw [cells_read?, if_pos (Nat.zero_le i), List.getElem?_eq_getElem (by simp; omega)]
    rfl

theorem filled_live {capacity : Nat} {dead l : List Byte} (h : dead.length + l.length ≤ capacity) :
    (filled capacity dead l).inst.live = .ok l := by
  refine live_ok_iff.mpr ⟨by simp [filled, Instance.usage], fun j hj => ?_⟩
  show dead.length + j < capacity ∧ (cells 0 (dead ++ l)).read? (dead.length + j) = some l[j]
  refine ⟨by omega, ?_⟩
  rw [cells_read?, if_pos (Nat.zero_le _), Nat.sub_zero, List.getElem?_append_right (by omega),
    Nat.add_sub_cancel_left, List.getElem?_eq_getElem hj]

/-- The instance and the result after one step. -/
def after : Host.Outcome State Fault Refusal → Option (Instance × Option Result)
  | .next t => some (t.inst, t.result)
  | .fault _ => none
  | .refused _ => none

/-- The result, `data_len`, `offset` and the counters after one step. -/
def seen (o : Host.Outcome State Fault Refusal) : Option (Option Result × List Nat) :=
  (after o).map fun a =>
    (a.2, [a.1.dataLen, a.1.offset, a.1.packetsReceived, a.1.crcErrors, a.1.frameErrors])

/-- `frame(41)` and `frame("abc")` (vectors E13, E14), `frame(01 02 03)` (E4). -/
def frame41 : List Byte := [0xAA#8, 0x55#8, 0x00#8, 0x01#8, 0x41#8, 0xB9#8, 0x15#8]
def frameAbc : List Byte :=
  [0xAA#8, 0x55#8, 0x00#8, 0x03#8, 0x61#8, 0x62#8, 0x63#8, 0x51#8, 0x4A#8]
def frame123 : List Byte :=
  [0xAA#8, 0x55#8, 0x00#8, 0x03#8, 0x01#8, 0x02#8, 0x03#8, 0xAD#8, 0xAD#8]

theorem frame41_eq : frame41 = frameOf [0x41#8] := by decide +kernel
theorem frame123_eq : frame123 = frameOf [0x01#8, 0x02#8, 0x03#8] := by decide +kernel

/-! ### WellFormed: an ill-formed term for each check -/

/-- R56: three payload bytes under a stated length of 2. -/
theorem test_wf_refuses_frame_length :
    (Instr.frame (some [0x01#8, 0x02#8, 0x03#8]) 2 .present 9).wf = false := by decide

/-- R56: no byte under a stated length of 1. -/
theorem test_wf_refuses_addData_length : (Instr.addData (some []) 1).wf = false := by decide

/-- R47: one payload byte under Length 0x0100 (a swapped Length field). -/
theorem test_wf_refuses_wireFrame_length :
    (Instr.wireFrame 0x0100#16 [0x41#8] 0xB915#16).wf = false := by decide

/-- An ABSENT operand's length stands alone (R56). -/
theorem test_wf_accepts_absent :
    (Instr.frame none 70000 .absent 0).wf = true ∧ (Instr.addData none 1).wf = true := by decide

/-! ### Decoding: words written out from 30_encoding.md R55 and R47 -/

theorem test_decode_crc16 : decode (.command [0x01#8, 0x02#8, 0xAA#8, 0x55#8]) =
    .ok (.crc16 [0xAA#8, 0x55#8]) := by decide

theorem test_decode_frame : decode (.command [0x02#8, 1#8, 2#8, 0x01#8, 0x02#8, 1#8, 8#8]) =
    .ok (.frame (some [0x01#8, 0x02#8]) 2 .present 8) := by decide

/-- 255 = 0x7F + 128 × 1. -/
theorem test_decode_new : decode (.command [0x10#8, 0#8, 0xFF#8, 0x01#8]) =
    .ok (.new .absent 255) := by decide

theorem test_decode_addData : decode (.command [0x11#8, 0#8, 1#8]) = .ok (.addData none 1) := by decide

theorem test_decode_extract : decode (.command [0x12#8, 0#8, 0#8]) = .ok (.extract .absent 0) := by decide

theorem test_decode_plain : decode (.command [0x13#8]) = .ok .reset ∧
    decode (.command [0x14#8]) = .ok .usage ∧ decode (.command [0x15#8]) = .ok .stats := by decide

/-- Vector E13: `AA 55 00 01 41 B9 15`. -/
theorem test_decode_wireFrame :
    decode (.wire frame41) = .ok (.wireFrame 0x0001#16 [0x41#8] 0xB915#16) := by decide

/-- Reserved `op` values at the ends of their ranges (R57). -/
theorem test_decode_reserved : ∀ op ∈ [0x00#8, 0x03#8, 0x0F#8, 0x16#8, 0xAA#8, 0xFF#8],
    decode (.command [op]) = .error (.reservedOp op) := by decide

theorem test_decode_rejects : decode (.command []) = .error .noOp ∧
    decode (.command [0x12#8, 1#8]) = .error .truncatedOperand ∧
    decode (.command [0x12#8, 2#8, 0#8]) = .error (.badPresence 2#8) ∧
    decode (.command [0x12#8, 1#8, 0x80#8, 0#8]) = .error .nonMinimalNatural ∧
    decode (.command [0x13#8, 0#8]) = .error .trailingBytes := by decide

/-- One magic byte wrong, one byte short, one byte more (R47). -/
theorem test_decode_not_a_frame :
    decode (.wire [0xAA#8, 0x54#8, 0#8, 0#8, 0xFF#8, 0xFF#8]) = .error .notAFrame ∧
    decode (.wire [0xAA#8, 0x55#8, 0#8, 1#8, 0xFF#8, 0xFF#8]) = .error .notAFrame ∧
    decode (.wire [0xAA#8, 0x55#8, 0#8, 0#8, 0xFF#8, 0xFF#8, 0#8]) = .error .notAFrame := by decide

/-- The command bytes of the rows are pairwise distinct (R55). -/
theorem test_ops_distinct :
    [Config.opCrc16, Config.opFrame, Config.opNew, Config.opAddData, Config.opExtract, Config.opReset,
      Config.opUsage, Config.opStats].Nodup := by decide

/-- Every row's `match` word of spec/opcode_table.json. -/
theorem test_table_words :
    decodeTableWord 8 0x01 = some (.crc16 []) ∧ decodeTableWord 8 0x02 = some (.frame none 0 .absent 0) ∧
    decodeTableWord 8 0x10 = some (.new .absent 0) ∧ decodeTableWord 8 0x11 = some (.addData none 0) ∧
    decodeTableWord 8 0x12 = some (.extract .absent 0) ∧ decodeTableWord 8 0x13 = some .reset ∧
    decodeTableWord 8 0x14 = some .usage ∧ decodeTableWord 8 0x15 = some .stats ∧
    decodeTableWord 8 0x03 = none ∧
    decodeTableWord 32 0xAA550002 = some (.wireFrame 2#16 [0#8, 0#8] 0#16) ∧
    decodeTableWord 32 0xAB550000 = none := by decide

/-- The step after `withFetchWord` runs the row's instruction: `CRC16` of no bytes is 0xFFFF (R69). -/
theorem test_withFetchWord_crc16 :
    after (step (State.reset.withFetchWord 8 0x01)) =
      some (.powerOn, some (.okValue (.num 0xFFFF))) := by decide

theorem test_withFetchWord_wire :
    after (step (State.reset.withFetchWord 32 0xAA550000)) =
      some (.powerOn, some (.failed .invalidArgument)) := by decide

/-! ### The CRC engine (95_test_vectors.md section 2) -/

/-- Section 2.3: the eight shifts of `CRC_BYTE(0xFFFF, 0x31)`. -/
theorem test_crcByte_trace :
    (List.range 9).map (fun k => Nat.repeat crcShift k (0xFFFF#16 ^^^ highByte 0x31#8)) =
      [0xCEFF#16, 0x8DDF#16, 0x0B9F#16, 0x173E#16, 0x2E7C#16, 0x5CF8#16, 0xB9F0#16, 0x63C1#16,
        0xC782#16] := by decide

/-- Section 2.2: spot values of the table. -/
theorem test_crcTable : crcTable 0x80#8 = 0x9188#16 ∧ crcTable 0x55#8 = 0x0A50#16 ∧
    crcTable 0xC9#8 = 0x4865#16 ∧ crcTable 0xFF#8 = 0x1EF0#16 := by decide

/-- G3, G4, G6, G7, G8, G9. -/
theorem test_crc16_vectors : crc16 [0x00#8] = 0xE1F0#16 ∧ crc16 [0xFF#8] = 0xFF00#16 ∧
    crc16 [0x00#8, 0x00#8] = 0x1D0F#16 ∧ crc16 [0xFF#8, 0xFF#8] = 0x0000#16 ∧
    crc16 [0xAA#8, 0x55#8] = 0xE5EA#16 ∧ crc16 [0x01#8, 0x02#8, 0x03#8] = 0xADAD#16 := by
  decide +kernel

/-- G10, "Hello", as a command on an unconstructed block. -/
theorem test_exec_crc16 :
    after (exec (.crc16 [0x48#8, 0x65#8, 0x6C#8, 0x6C#8, 0x6F#8]) .reset) =
      some (.powerOn, some (.okValue (.num 0xDADA))) := by decide +kernel

/-! ### FRAME (section 3) -/

/-- E25: `"abc"` into 100 cells gives 9 bytes. -/
theorem test_frame_abc :
    after (exec (.frame (some [0x61#8, 0x62#8, 0x63#8]) 3 .present 100) .reset) =
      some (.powerOn, some ⟨.ok, .num 9, false, frameAbc⟩) := by decide +kernel

/-- E18, E19, E20 (operand 70000 bytes long by its length operand), E23. -/
theorem test_frame_failures :
    after (exec (.frame (some []) 0 .absent 0) .reset) = some (.powerOn, some (.failed .invalidArgument)) ∧
    after (exec (.frame none 70000 .present 10) .reset) =
      some (.powerOn, some (.failed .invalidArgument)) ∧
    (∀ d, after (exec (.frame (some d) 70000 .present 10) .reset) =
      some (.powerOn, some (.failed .payloadTooLarge))) ∧
    after (exec (.frame (some [0x61#8, 0x62#8, 0x63#8]) 3 .present 8) .reset) =
      some (.powerOn, some (.failed .outputTooSmall)) :=
  ⟨by decide, by decide, fun _ => rfl, by decide⟩

/-! ### NEW, ADD_DATA, RESET, USAGE, STATS, reserved op (section 4) -/

/-- A1: `NEW cap=255` and an ABSENT buffer fail, `NEW cap=256` succeeds. -/
theorem test_new :
    seen (exec (.new .present 255) .reset) = some (some (.failed .invalidArgument), [0, 0, 0, 0, 0]) ∧
    seen (exec (.new .absent 256) .reset) = some (some (.failed .invalidArgument), [0, 0, 0, 0, 0]) ∧
    after (exec (.new .present 256) .reset) =
      some (.fresh 256, some (.okValue (.num 0))) := by decide

/-- A8: a second `NEW` zeroes the counters. -/
theorem test_new_again : seen (exec (.new .present 300) (filled 256 [] [0x01#8])) =
    some (some (.okValue (.num 0)), [0, 0, 0, 0, 0]) := by decide

/-- A2: a reserved `op` with operands, on a constructed instance. -/
theorem test_reserved_op :
    seen (step { filled 256 [] [0x01#8] with pending := [.command [0x16#8, 0x99#8]] }) =
      some (some (.failed .invalidArgument), [1, 0, 5, 2, 3]) := by decide

/-- A3: present but empty, ABSENT with a length. -/
theorem test_addData_refuses :
    seen (exec (.addData (some []) 0) (filled 256 [] [])) =
      some (some (.failed .invalidArgument), [0, 0, 5, 2, 3]) ∧
    seen (exec (.addData none 1) (filled 256 [] [])) =
      some (some (.failed .invalidArgument), [0, 0, 5, 2, 3]) := by decide

/-- A6's shape with 200 dead bytes: 4 live, a chunk of 53 fits only after compaction (204 + 53 > 256). -/
theorem test_addData_compacts :
    seen (exec (.addData (some (many 53 0x11#8)) 53)
      (filled 256 (many 200 0#8) [0x01#8, 0x02#8, 0x03#8, 0x04#8])) =
      some (some (.okValue (.num 0)), [57, 0, 5, 2, 3]) := by decide +kernel

/-- Bytes are stored behind `data_len` in order (R90). -/
theorem test_addData_stores :
    (after (exec (.addData (some [0x0A#8, 0x0B#8]) 2) (filled 256 [0x00#8] [0x01#8]))).map (·.1.buf) =
      some [(0, 0x00#8), (1, 0x01#8), (2, 0x0A#8), (3, 0x0B#8)] := by decide

/-- A8: `RESET` keeps the counters and the cells. -/
theorem test_reset : after (exec .reset (filled 256 [0x00#8] [0x01#8])) =
    some ({ (filled 256 [0x00#8] [0x01#8]).inst with dataLen := 0, offset := 0 },
      some (.okValue (.num 0))) := by decide

/-- R94: `{data_len=13, offset=6}` gives 7. -/
theorem test_usage : seen (exec .usage (filled 256 (many 6 0#8) (many 7 0#8))) =
    some (some (.okValue (.num 7)), [13, 6, 5, 2, 3]) := by decide

theorem test_stats : seen (exec .stats (filled 256 [] [])) =
    some (some (.okValue (.counters 5 2 3)), [0, 0, 5, 2, 3]) := by decide

/-- R48: the bytes of the frame in wire order, behind the live ones. -/
theorem test_wireFrame :
    (after (exec (.wireFrame 1#16 [0x41#8] 0xB915#16) (filled 256 [] [0x00#8]))).map
      (fun a => (a.1.buf, a.2)) =
      some (cells 0 (0x00#8 :: frame41), some (.okValue (.num 0))) := by decide

/-- A received chunk that is no frame goes the same way (R54). -/
theorem test_wire_garbage :
    seen (step { filled 256 [] [] with pending := [.wire [0xAA#8, 0x55#8]] }) =
      some (some (.okValue (.num 0)), [2, 0, 5, 2, 3]) := by decide

/-! ### EXTRACT (section 5); the counters start at (5, 2, 3) -/

/-- S2: four live bytes `00 AA 55 00`: one skip, three wait. S5: ABSENT output. -/
theorem test_extract_short :
    seen (exec (.extract .present 16) (filled 256 [] [0x00#8, 0xAA#8, 0x55#8, 0x00#8])) =
      some (some .needMoreData, [3, 0, 5, 2, 4]) ∧
    seen (exec (.extract .absent 16) (filled 256 [] frame41)) =
      some (some (.failed .invalidArgument), [7, 0, 5, 2, 3]) := by decide

/-- S6: of two frames in the buffer one is emitted; the cells stay. -/
theorem test_extract_two_frames :
    seen (exec (.extract .present 16) (filled 256 [] (frame41 ++ frameAbc))) =
      some (some (.emitted [0x41#8]), [16, 7, 6, 2, 3]) := by decide +kernel

/-- S7: five garbage bytes before a frame. S14: `AA` repeated before a frame. -/
theorem test_extract_garbage :
    seen (exec (.extract .present 16)
      (filled 256 [] ([0x00#8, 0x11#8, 0x22#8, 0x33#8, 0x44#8] ++ frame41))) =
      some (some (.emitted [0x41#8]), [12, 12, 6, 2, 8]) ∧
    seen (exec (.extract .present 16) (filled 256 [] (0xAA#8 :: frame41))) =
      some (some (.emitted [0x41#8]), [8, 8, 6, 2, 4]) := by decide +kernel

/-- S10: a flipped payload bit, then a valid frame: ce 1, fe 8. -/
theorem test_extract_crc_failure :
    seen (exec (.extract .present 16) (filled 256 []
      ([0xAA#8, 0x55#8, 0x00#8, 0x03#8, 0x01#8, 0x03#8, 0x03#8, 0xAD#8, 0xAD#8] ++ frame41))) =
      some (some (.emitted [0x41#8]), [16, 16, 6, 3, 11]) := by decide +kernel

/-- S11: `frame("Hello")` with an output of 4: fe 8, the last 3 bytes wait. -/
theorem test_extract_small_output :
    seen (exec (.extract .present 4) (filled 256 []
      [0xAA#8, 0x55#8, 0x00#8, 0x05#8, 0x48#8, 0x65#8, 0x6C#8, 0x6C#8, 0x6F#8, 0xDA#8, 0xDA#8])) =
      some (some .needMoreData, [3, 0, 5, 2, 11]) := by decide +kernel

/-- S12: a frame image inside a payload is emitted after the outer frame fails. -/
theorem test_extract_inner_frame :
    seen (exec (.extract .present 16) (filled 256 []
      [0xAA#8, 0x55#8, 0x00#8, 0x06#8, 0xAA#8, 0x55#8, 0x00#8, 0x00#8, 0xFF#8, 0xFF#8, 0x42#8, 0xD0#8])) =
      some (some (.emitted []), [12, 10, 6, 3, 6]) := by decide +kernel

/-- S13: a zero-length payload into an output of 0: value 0, emit 1. -/
theorem test_extract_empty_payload :
    seen (exec (.extract .present 0) (filled 256 []
      ([0xAA#8, 0x55#8, 0x00#8, 0x00#8, 0xFF#8, 0xFF#8] ++ frame41))) =
      some (some (.emitted []), [13, 6, 6, 2, 3]) := by decide +kernel

/-! ### Status bytes (R58) and scripts (R62) -/

theorem test_status_codes :
    [Status.ok, .invalidArgument, .payloadTooLarge, .outputTooSmall, .bufferFull, .frameSyncError,
      .crcMismatch].map Status.code = [0x00#8, 0x01#8, 0x02#8, 0x03#8, 0x04#8, 0x05#8, 0x06#8] := by decide

/-- `FEED 01 02 03 chunk=2`: the last piece is shorter. -/
theorem test_feed : scriptFeed [0x01#8, 0x02#8, 0x03#8] 2 =
    [.addData (some [0x01#8, 0x02#8]) 2, .addData (some [0x03#8]) 1] := by decide

/-- The results of a script, none where it stops. -/
def results : Host.Outcome (State × List Result) Fault Refusal → Option (List Result)
  | .next a => some a.2
  | .fault _ => none
  | .refused _ => none

/-- S13: `DRAIN0` stops at the zero-length payload, `DRAIN` does not. -/
theorem test_drains :
    results (drain0 16 (filled 256 [] ([0xAA#8, 0x55#8, 0#8, 0#8, 0xFF#8, 0xFF#8] ++ frame41))) =
      some [.emitted []] ∧
    results (drain 16 (filled 256 [] ([0xAA#8, 0x55#8, 0#8, 0#8, 0xFF#8, 0xFF#8] ++ frame41))) =
      some [.emitted [], .emitted [0x41#8], .needMoreData] := by decide +kernel

/-- R111: a CRC mismatch passes VALIDATING and ends in RESYNC, as a counted condition (R129). -/
theorem test_points : Verdict.crcMismatch.points = [.searching, .headerFound, .validating, .resync] ∧
    Verdict.crcMismatch.condition = some .crcMismatch ∧ Verdict.bodyIncomplete.condition = none := by decide

/-! ### Witnesses: every statement's hypotheses are met by a concrete state and operands -/

theorem witness_PowerOnIsUnconstructed : needsConstructed .reset = true := rfl

theorem witness_EveryStepKeepsInvariant :
    (∃ t, (filled 256 [] frame41).Inv ∧
      step { filled 256 [] frame41 with pending := [encode (.extract .present 1)] } = .next t) ∧
    (256 ≤ 256 ∧ ∃ t, exec (.new .present 256) State.reset = .next t) :=
  ⟨⟨_, filled_inv (by decide) (by decide), rfl⟩, by decide, _, rfl⟩

theorem witness_NoStepFaults : (filled 256 (many 249 0#8) frame41).Inv :=
  filled_inv (by decide) (by simp [frame41])

theorem witness_StepRunsDecoded :
    ({ State.reset with pending := [.command [0x14#8], .wire frame41] } : State).pending =
      .command [0x14#8] :: [.wire frame41] ∧ decode (.command [0x14#8]) = .ok .usage ∧
    State.reset.pending = [] := ⟨rfl, by decide, rfl⟩

theorem witness_RequestsAreTakenInOrder :
    (∃ t, step { State.reset with pending := [.wire frame41] } = .next t) ∧
    ∃ t, exec .usage State.reset = .next t := ⟨⟨_, rfl⟩, _, rfl⟩

theorem witness_ReservedOpIsInvalidArgument :
    ∀ op ∈ [0x00#8, 0x03#8, 0x0F#8, 0x16#8, 0xFF#8],
      op.toNat ∉ [0x01, 0x02, 0x10, 0x11, 0x12, 0x13, 0x14, 0x15] ∧
      ({ State.reset with pending := [.command [op, 0x01#8]] } : State).pending =
        .command (op :: [0x01#8]) :: [] := by decide

theorem witness_DecodeInvertsEncode :
    (Instr.frame (some (many 200 0xAA#8)) 200 .present 70000).wf = true ∧
    (Instr.wireFrame 0xFFFF#16 (many 65535 0#8) 0#16).wf = true :=
  ⟨by simp [Instr.wf, inputLengthOk], by simp [Instr.wf]⟩

theorem witness_EncodeInvertsDecode :
    decode (.wire frame41) = .ok (.wireFrame 1#16 [0x41#8] 0xB915#16) := by decide

theorem witness_CrcByteFollowsTheShifts :
    (0x12FF#16 : Word).toNat % 256 = (0x34FF#16 : Word).toNat % 256 ∧
      hi8 0x12FF#16 ^^^ 0x26#8 = hi8 0x34FF#16 ^^^ 0x00#8 := by decide

theorem witness_CrcDetectsOneChangedByte : (0x02#8 : Byte) ≠ 0x03#8 := by decide

theorem witness_FrameWritesTheFrame :
    ((many 65535 0#8).length ≤ 65535 ∧
      (many 65535 0#8).length + 6 ≤ 65541) ∧
    (([] : List Byte).length ≤ 65535 ∧ ([] : List Byte).length + 6 ≤ 6) ∧ 6 ≤ 6 := by
  simp

/-- One input for each failing check: E16, E18, E21, E26. -/
theorem witness_FrameChecksInOrder :
    (((none : Option (List Byte)) = none ∧ 1 > 0) ∧ (Presence.absent = .absent) ∧ 65536 > 65535 ∧
      5 < 4 + 0 + 2) := by decide

theorem witness_FrameIsTheOneValidFrame : (many 65535 0#8).length ≤ 65535 := by simp

theorem witness_NewMakesFreshInstance : (256 : Nat) ≤ 256 := by decide

theorem witness_NewRefusesSmallBuffers : Presence.absent = .absent ∧ 255 < 256 := by decide

theorem witness_UsageCountsLiveBytes : (filled 256 [0x00#8] [0x01#8]).inst.Inv :=
  filled_inv (by decide) (by decide)

theorem witness_StatsReturnsCounters : (filled 256 [] []).inst.constructed = true := rfl

theorem witness_BeforeNewInvalidArgument :
    needsConstructed (.addData (some [0x01#8]) 1) = true ∧ needsConstructed (.extract .present 16) = true ∧
    needsConstructed .reset = true ∧ needsConstructed .usage = true ∧ needsConstructed .stats = true ∧
    needsConstructed (.wireFrame 0#16 [] 0#16) = true ∧ State.reset.inst.constructed = false := by decide

theorem witness_AddDataRefusesEmpty :
    ((none : Option (List Byte)) = none ∨ 1 = 0) ∧ ((some [] : Option (List Byte)) = none ∨ 0 = 0) := by
  decide

/-- A chunk that just fits behind `data_len`. -/
theorem witness_AddDataAppends_fits :
    (filled 256 (many 250 0#8) [0x01#8, 0x02#8]).Inv ∧
    (filled 256 (many 250 0#8) [0x01#8, 0x02#8]).inst.constructed = true ∧
    many 4 0x11#8 ≠ [] ∧
    (filled 256 (many 250 0#8) [0x01#8, 0x02#8]).inst.live = .ok [0x01#8, 0x02#8] ∧
    [0x01#8, 0x02#8].length + (many 4 0x11#8).length ≤ 256 ∧
    (filled 256 (many 250 0#8) [0x01#8, 0x02#8]).inst.dataLen +
      (many 4 0x11#8).length ≤ 256 :=
  ⟨filled_inv (by decide) (by simp), rfl, many_ne_nil _ (by decide), filled_live (by simp), by simp, by simp [filled]⟩

/-- A chunk one byte longer, which fits only after compaction; and one that then fills the buffer. -/
theorem witness_AddDataAppends_compacts :
    (filled 256 (many 250 0#8) [0x01#8, 0x02#8]).Inv ∧
    (filled 256 (many 250 0#8) [0x01#8, 0x02#8]).inst.constructed = true ∧
    (filled 256 (many 250 0#8) [0x01#8, 0x02#8]).inst.live = .ok [0x01#8, 0x02#8] ∧
    ∀ k ∈ [5, 254], many k 0x11#8 ≠ [] ∧
      [0x01#8, 0x02#8].length + (many k 0x11#8).length ≤ 256 ∧
      256 < (filled 256 (many 250 0#8) [0x01#8, 0x02#8]).inst.dataLen +
        (many k 0x11#8).length :=
  ⟨filled_inv (by decide) (by simp), rfl, filled_live (by simp), by simp [filled, many_ne_nil]⟩

/-- One byte more than the whole buffer can take. -/
theorem witness_AddDataBufferFullKeepsLive :
    (filled 256 (many 250 0#8) [0x01#8, 0x02#8]).Inv ∧
    (filled 256 (many 250 0#8) [0x01#8, 0x02#8]).inst.constructed = true ∧
    many 255 0x11#8 ≠ [] ∧
    (filled 256 (many 250 0#8) [0x01#8, 0x02#8]).inst.live = .ok [0x01#8, 0x02#8] ∧
    256 < [0x01#8, 0x02#8].length + (many 255 0x11#8).length :=
  ⟨filled_inv (by decide) (by simp), rfl, many_ne_nil _ (by decide), filled_live (by simp), by simp⟩

/-- A 7-byte frame that just fits behind `data_len`, and one that fits only after a move. -/
theorem witness_WireFrameIsAppended :
    ∀ k ∈ [248, 249],
      (filled 256 (many k 0#8) [0x01#8]).Inv ∧
      (filled 256 (many k 0#8) [0x01#8]).inst.constructed = true ∧
      [0x41#8].length = (1#16 : Word).toNat ∧
      (filled 256 (many k 0#8) [0x01#8]).inst.live = .ok [0x01#8] ∧
      [0x01#8].length + ([0x41#8].length + 6) ≤ 256 ∧
      (k = 248 → (filled 256 (many k 0#8) [0x01#8]).inst.dataLen + ([0x41#8].length + 6) ≤ 256) ∧
      (k = 249 → 256 < (filled 256 (many k 0#8) [0x01#8]).inst.dataLen + ([0x41#8].length + 6)) := by
  intro k hk
  have hk : k = 248 ∨ k = 249 := by simpa using hk
  have hl : (many k 0#8).length + [0x01#8].length ≤ 256 := by simp; omega
  refine ⟨filled_inv (by decide) hl, rfl, by decide, filled_live hl, by decide, fun h => ?_, fun h => ?_⟩ <;>
    simp [filled, h]

theorem witness_WireBytesAreAddData :
    ({ State.reset with pending := [.wire [0x00#8]] } : State).pending = .wire [0x00#8] :: [] := rfl

theorem witness_CompactKeepsLive : (filled 256 (many 106 0#8) (many 100 0x11#8)).inst.Inv :=
  filled_inv (by decide) (by decide)

/-- One state for each of the three results. -/
theorem witness_ExtractHasThreeResults :
    (filled 256 [] []).Inv ∧ (filled 256 [] frame41).Inv ∧ State.reset.Inv :=
  ⟨filled_inv (by decide) (by decide), filled_inv (by decide) (by decide),
    by refine ⟨?_, ?_, ?_, ?_, ?_, ?_⟩ <;> simp [Instance.powerOn, Memory.wf]⟩

theorem witness_ExtractCompactsOnEntryAt1024 :
    (filled 2048 (many 1024 0#8) []).Inv ∧
    (filled 2048 (many 1024 0#8) []).inst.constructed = true ∧
    1024 ≤ (filled 2048 (many 1024 0#8) []).inst.offset ∧
    ∃ n, (filled 2048 (many 1024 0#8) []).inst.compact = .ok n := by
  have h : (filled 2048 (many 1024 0#8) []).Inv := filled_inv (by decide) (by simp)
  obtain ⟨m, hm, -⟩ := compact_ok h
  exact ⟨h, rfl, by simp [filled], _, hm⟩

theorem witness_ExtractWaitsForHeader :
    ∀ l ∈ [[], [0x00#8, 0xAA#8, 0x55#8]],
      (filled 256 [0x01#8] l).Inv ∧ (filled 256 [0x01#8] l).inst.constructed = true ∧
      (filled 256 [0x01#8] l).inst.live = .ok l ∧ l.length < 4 := by
  intro l hl
  have h : l.length ≤ 3 := by
    have : l = [] ∨ l = [0x00#8, 0xAA#8, 0x55#8] := by simpa using hl
    rcases this with rfl | rfl <;> simp
  exact ⟨filled_inv (by decide) (by simp; omega), rfl, filled_live (by simp; omega), by omega⟩

/-- Magic1 wrong, Magic2 wrong (S8), both wrong. -/
theorem witness_MagicMismatchSkipsOneByte :
    ∀ b ∈ [(0xAB#8, 0x55#8), (0xAA#8, 0x54#8), (0x00#8, 0x00#8)],
      (filled 256 [] [b.1, b.2, 0x00#8, 0x03#8]).Inv ∧
      (filled 256 [] [b.1, b.2, 0x00#8, 0x03#8]).inst.constructed = true ∧
      (filled 256 [] [b.1, b.2, 0x00#8, 0x03#8]).inst.live = .ok (b.1 :: b.2 :: 0x00#8 :: 0x03#8 :: []) ∧
      (b.1 ≠ 0xAA#8 ∨ b.2 ≠ 0x55#8) := by
  intro b hb
  refine ⟨filled_inv (by decide) (by simp), rfl, filled_live (by simp), ?_⟩
  simp only [List.mem_cons, List.not_mem_nil, or_false] at hb
  rcases hb with rfl | rfl | rfl <;> decide

/-- One byte short of the frame, in a buffer that could hold it; and a Length of 65535. -/
theorem witness_ExtractWaitsForBody :
    (filled 256 [] (frame123.dropLast)).Inv ∧
    (filled 256 [] (frame123.dropLast)).inst.constructed = true ∧
    (filled 256 [] (frame123.dropLast)).inst.live =
      .ok (0xAA#8 :: 0x55#8 :: 0x00#8 :: 0x03#8 :: [0x01#8, 0x02#8, 0x03#8, 0xAD#8]) ∧
    (0xAA#8 :: 0x55#8 :: 0x00#8 :: 0x03#8 :: [0x01#8, 0x02#8, 0x03#8, 0xAD#8]).length <
      4 + ((0x00#8 : Byte).toNat * 256 + (0x03#8 : Byte).toNat) + 2 ∧
    (0xAA#8 :: 0x55#8 :: 0xFF#8 :: 0xFF#8 :: []).length <
      4 + ((0xFF#8 : Byte).toNat * 256 + (0xFF#8 : Byte).toNat) + 2 :=
  ⟨filled_inv (by decide) (by decide), rfl, filled_live (by decide), by decide, by decide⟩

/-- The whole frame there, the output one cell short; and exactly enough. -/
theorem witness_SmallOutputSkipsOneByte :
    (filled 256 [] frame123).Inv ∧ (filled 256 [] frame123).inst.constructed = true ∧
    (filled 256 [] frame123).inst.live =
      .ok (0xAA#8 :: 0x55#8 :: 0x00#8 :: 0x03#8 :: [0x01#8, 0x02#8, 0x03#8, 0xAD#8, 0xAD#8]) ∧
    (0x00#8 : Byte).toNat * 256 + (0x03#8 : Byte).toNat + 2 ≤
      [0x01#8, 0x02#8, 0x03#8, 0xAD#8, 0xAD#8].length ∧
    2 < (0x00#8 : Byte).toNat * 256 + (0x03#8 : Byte).toNat ∧
    [0x01#8, 0x02#8, 0x03#8].length ≤ 65535 ∧
    (filled 256 [] frame123).inst.live = .ok (frameOf [0x01#8, 0x02#8, 0x03#8] ++ []) :=
  ⟨filled_inv (by decide) (by decide), rfl, filled_live (by decide), by decide, by decide, by decide, by
    rw [List.append_nil, ← frame123_eq]
    exact filled_live (by decide)⟩

/-- S9, with an output of exactly Length. -/
theorem witness_CrcMismatchSkipsOneByte :
    (filled 256 [] [0xAA#8, 0x55#8, 0x00#8, 0x03#8, 0x01#8, 0x03#8, 0x03#8, 0xAD#8, 0xAD#8]).Inv ∧
    (filled 256 [] [0xAA#8, 0x55#8, 0x00#8, 0x03#8, 0x01#8, 0x03#8, 0x03#8, 0xAD#8, 0xAD#8]).inst.live =
      .ok (0xAA#8 :: 0x55#8 :: 0x00#8 :: 0x03#8 :: ([0x01#8, 0x03#8, 0x03#8] ++ 0xAD#8 :: 0xAD#8 :: [])) ∧
    [0x01#8, 0x03#8, 0x03#8].length = (0x00#8 : Byte).toNat * 256 + (0x03#8 : Byte).toNat ∧
    [0x01#8, 0x03#8, 0x03#8].length ≤ 3 ∧
    (crc16 [0x01#8, 0x03#8, 0x03#8]).toNat ≠ (0xAD#8 : Byte).toNat * 256 + (0xAD#8 : Byte).toNat :=
  ⟨filled_inv (by decide) (by decide), filled_live (by decide), by decide, by decide, by decide +kernel⟩

theorem frameOf_nil : frameOf [] = [0xAA#8, 0x55#8, 0x00#8, 0x00#8, 0xFF#8, 0xFF#8] := by decide

/-- The empty payload into an output of 0 cells; the cursor at 1023, the last place with no compaction
on entry (S17). -/
theorem witness_ExtractEmitsValidFrame :
    (filled 2048 (many 1023 0#8) (frameOf [] ++ frame41)).Inv ∧
    (filled 2048 (many 1023 0#8) (frameOf [] ++ frame41)).inst.constructed = true ∧
    (filled 2048 (many 1023 0#8) (frameOf [] ++ frame41)).inst.live =
      .ok (frameOf [] ++ frame41) ∧
    ([] : List Byte).length ≤ 65535 ∧ ([] : List Byte).length ≤ 0 ∧
    (filled 2048 (many 1023 0#8) (frameOf [] ++ frame41)).inst.offset < 1024 := by
  have h : (many 1023 0#8).length + (frameOf [] ++ frame41).length ≤ 2048 := by
    rw [frameOf_nil]
    simp [frame41]
  exact ⟨filled_inv (by decide) h, rfl, filled_live h, by decide, by decide, by simp [filled]⟩

theorem witness_GarbageIsSkippedExactly :
    (filled 256 [] ([0x55#8, 0xAA#8, 0xAA#8] ++ (frameOf [0x41#8] ++ []))).Inv ∧
    (filled 256 [] ([0x55#8, 0xAA#8, 0xAA#8] ++ (frameOf [0x41#8] ++ []))).inst.constructed = true ∧
    noMagicPair [0x55#8, 0xAA#8, 0xAA#8] = true ∧ [0x41#8].length ≤ 65535 ∧ [0x41#8].length ≤ 1 ∧
    (filled 256 [] ([0x55#8, 0xAA#8, 0xAA#8] ++ (frameOf [0x41#8] ++ []))).inst.live =
      .ok ([0x55#8, 0xAA#8, 0xAA#8] ++ (frameOf [0x41#8] ++ [])) := by
  rw [← frame41_eq]
  exact ⟨filled_inv (by decide) (by decide), rfl, by decide, by decide, by decide,
    filled_live (by decide)⟩

/-- S10. -/
theorem witness_DamagedPayloadIsSkipped :
    ∃ s : State, s.Inv ∧ s.inst.constructed = true ∧ (0x02#8 : Byte) ≠ 0x03#8 ∧
      ([0x01#8] ++ 0x02#8 :: [0x03#8]).length ≤ 65535 ∧ ([0x01#8] ++ 0x02#8 :: [0x03#8]).length ≤ 3 ∧
      [0x41#8].length ≤ 65535 ∧ [0x41#8].length ≤ 3 ∧
      noMagicPair ((frameBytes (BitVec.ofNat 16 ([0x01#8] ++ 0x02#8 :: [0x03#8]).length)
        ([0x01#8] ++ 0x03#8 :: [0x03#8]) (crc16 ([0x01#8] ++ 0x02#8 :: [0x03#8]))).drop 1) = true ∧
      s.inst.live = .ok (frameBytes (BitVec.ofNat 16 ([0x01#8] ++ 0x02#8 :: [0x03#8]).length)
        ([0x01#8] ++ 0x03#8 :: [0x03#8]) (crc16 ([0x01#8] ++ 0x02#8 :: [0x03#8])) ++
          (frameOf [0x41#8] ++ [])) := by
  have h : ([] : List Byte).length + (frameBytes (BitVec.ofNat 16 ([0x01#8] ++ 0x02#8 :: [0x03#8]).length)
      ([0x01#8] ++ 0x03#8 :: [0x03#8]) (crc16 ([0x01#8] ++ 0x02#8 :: [0x03#8])) ++
        (frameOf [0x41#8] ++ [])).length ≤ 256 := by
    simp [frameOf]
  exact ⟨filled 256 [] _, filled_inv (by decide) h, rfl, by decide, by decide, by decide, by decide,
    by decide, by decide +kernel, filled_live h⟩

theorem witness_PartOfAFrameWaits :
    (filled 256 [] (frame123.dropLast)).Inv ∧ (filled 256 [] (frame123.dropLast)).inst.constructed = true ∧
    [0x01#8, 0x02#8, 0x03#8].length ≤ 65535 ∧
    frame123.dropLast ++ [0xAD#8] = frameOf [0x01#8, 0x02#8, 0x03#8] ∧ [0xAD#8] ≠ [] ∧
    (filled 256 [] (frame123.dropLast)).inst.live = .ok (frame123.dropLast) := by
  rw [← frame123_eq]
  exact ⟨filled_inv (by decide) (by decide), rfl, by decide, by decide, by decide, filled_live (by decide)⟩

/-- The frame of one byte cut down to one byte per chunk, into a smallest instance with no live bytes. -/
theorem witness_RoundTripInAnyChunks :
    (filled 256 (many 256 0#8) []).Inv ∧
    (filled 256 (many 256 0#8) []).inst.constructed = true ∧
    (filled 256 (many 256 0#8) []).inst.live = .ok [] ∧
    [0x41#8].length ≤ 65535 ∧ [0x41#8].length ≤ 1 ∧
    [0x41#8].length + 6 ≤ (filled 256 (many 256 0#8) []).inst.capacity ∧
    (∀ c ∈ [[0xAA#8], [0x55#8], [0x00#8], [0x01#8], [0x41#8], [0xB9#8]] ++ [[0x15#8]], c ≠ []) ∧
    ([[0xAA#8], [0x55#8], [0x00#8], [0x01#8], [0x41#8], [0xB9#8]] ++ [[0x15#8]]).flatten =
      frameOf [0x41#8] := by
  rw [← frame41_eq]
  exact ⟨filled_inv (by decide) (by simp), rfl, filled_live (by simp), by decide, by decide,
    by simp [filled], by decide, by decide⟩

/-- The largest payload that fits the smallest buffer (S16). -/
theorem witness_SendThenDrainDeliversPayload :
    (filled 256 [] []).Inv ∧ (filled 256 [] []).inst.constructed = true ∧
    (filled 256 [] []).inst.live = .ok [] ∧ (many 250 0#8).length ≤ 65535 ∧
    (many 250 0#8).length ≤ 250 ∧
    (many 250 0#8).length + 6 ≤ (filled 256 [] []).inst.capacity :=
  ⟨filled_inv (by decide) (by decide), rfl, filled_live (by decide), by simp, by simp, by simp [filled]⟩

theorem witness_ExtractAccountsForEveryByte :
    ∃ (t : State) (r : Result), (filled 256 [] (0x00#8 :: frame41)).Inv ∧
      exec (.extract .present 1) (filled 256 [] (0x00#8 :: frame41)) = .next t ∧ t.result = some r :=
  ⟨_, _, filled_inv (by decide) (by decide), rfl, rfl⟩

theorem witness_BufferModelRefinesStreamModel :
    (Instr.addData (some [0x01#8]) 1).wf = true ∧ (filled 256 (many 256 0#8) []).Inv :=
  ⟨by decide, filled_inv (by decide) (by simp)⟩

/-- Two states with the same live bytes at different places. -/
theorem witness_OnlyObservablesMatter :
    (Instr.extract .present 1).wf = true ∧ (filled 256 [] frame41).Inv ∧
    (filled 256 [0x00#8, 0x01#8] frame41).Inv ∧
    (filled 256 [] frame41).inst.observe = (filled 256 [0x00#8, 0x01#8] frame41).inst.observe := by
  refine ⟨by decide, filled_inv (by decide) (by decide), filled_inv (by decide) (by decide), ?_⟩
  rw [observe_of_live (filled_live (by decide)), observe_of_live (filled_live (by decide))]
  rfl

/-- `BufferFull` after a compaction, and an `InvalidArgument`. -/
theorem witness_ErrorsChangeNothing :
    (∃ (t : State) (r : Result), (filled 256 [0x00#8] [0x01#8]).Inv ∧
      exec (.addData (some (many 256 0#8)) 256) (filled 256 [0x00#8] [0x01#8]) = .next t ∧
      t.result = some r ∧ r.status = .bufferFull ∧ r.status ≠ .ok) ∧
    ∃ (t : State) (r : Result), exec .usage State.reset = .next t ∧ t.result = some r ∧ r.status ≠ .ok :=
  ⟨⟨_, _, filled_inv (by decide) (by decide), rfl, rfl, rfl, by decide⟩, _, _, rfl, rfl, by decide⟩

/-- One input for each status an instruction can answer with. -/
theorem witness_StatusesComeFromTheirCommands :
    (∃ t r, exec (.frame (some []) 65536 .present 0) State.reset = .next t ∧ t.result = some r ∧
      r.status = .payloadTooLarge) ∧
    (∃ t r, exec (.frame (some []) 0 .present 5) State.reset = .next t ∧ t.result = some r ∧
      r.status = .outputTooSmall) ∧
    (∃ t r, exec (.addData (some (many 257 0#8)) 257) (filled 256 [] []) = .next t ∧
      t.result = some r ∧ r.status = .bufferFull) ∧
    (∃ t r, exec (.wireFrame 1#16 [0x41#8] 0#16)
        { filled 256 [] [] with inst := { (filled 256 [] []).inst with dataLen := 250 } } = .next t ∧
      t.result = some r ∧ r.status = .bufferFull) ∧
    (∃ t r, exec (.new .present 255) State.reset = .next t ∧ t.result = some r ∧
      r.status = .invalidArgument) :=
  ⟨⟨_, _, rfl, rfl, rfl⟩, ⟨_, _, rfl, rfl, rfl⟩, ⟨_, _, rfl, rfl, rfl⟩, ⟨_, _, rfl, rfl, rfl⟩,
    _, _, rfl, rfl, rfl⟩

theorem witness_CountersNeverDecrease :
    ∃ t, Instr.reset.wf = true ∧ (filled 256 [] frame41).Inv ∧
      exec .reset (filled 256 [] frame41) = .next t ∧
      (∀ capacity, Instr.reset = .new .present capacity → capacity < 256) ∧
      ∀ output cap, Instr.reset ≠ .extract output cap :=
  ⟨_, rfl, filled_inv (by decide) (by decide), rfl, by simp, by simp⟩

theorem witness_OnlyNewSetsCapacity :
    ∃ t, Instr.reset.wf = true ∧ (filled 256 [] frame41).Inv ∧
      exec .reset (filled 256 [] frame41) = .next t ∧
      (filled 256 [] frame41).inst.constructed = true ∧
      ∀ buffer capacity, Instr.reset ≠ .new buffer capacity :=
  ⟨_, rfl, filled_inv (by decide) (by decide), rfl, rfl, by simp⟩

/-- A turn for each way it can end: a counted condition of each kind (S7, S9), an emit, a wait for the
header and one for the body; and a loop test that fails. -/
theorem witness_TurnsFollowTheStateTable :
    (∀ l ∈ [[0x00#8, 0xAA#8, 0x55#8, 0x00#8],
        [0xAA#8, 0x55#8, 0x00#8, 0x03#8, 0x01#8, 0x03#8, 0x03#8, 0xAD#8, 0xAD#8], frame41,
        [0xAA#8], frame123.dropLast],
      (filled 256 [0x00#8] l).inst.Inv ∧
        (filled 256 [0x00#8] l).inst.offset < (filled 256 [0x00#8] l).inst.dataLen) ∧
    ((filled 256 [0x00#8] []).inst.Inv ∧
      (filled 256 [0x00#8] []).inst.offset = (filled 256 [0x00#8] []).inst.dataLen) ∧
    (filled 256 [] frame41).inst.constructed = true := by
  refine ⟨fun l hl => ?_, ⟨filled_inv (by decide) (by decide), rfl⟩, rfl⟩
  have h : 0 < l.length ∧ l.length ≤ 9 := by
    simp only [List.mem_cons, List.not_mem_nil, or_false] at hl
    rcases hl with rfl | rfl | rfl | rfl | rfl <;> decide
  have hlen : [0x00#8].length + l.length ≤ 256 := by
    simp only [List.length_cons, List.length_nil]
    omega
  refine ⟨filled_inv (by decide) hlen, ?_⟩
  simp only [filled, List.length_cons, List.length_nil]
  omega

/-- What the turns of that witness find. -/
theorem test_examine :
    [[0x00#8, 0xAA#8, 0x55#8, 0x00#8],
      [0xAA#8, 0x55#8, 0x00#8, 0x03#8, 0x01#8, 0x03#8, 0x03#8, 0xAD#8, 0xAD#8], frame41, [0xAA#8],
      frame123.dropLast].map (fun l => ((filled 256 [0x00#8] l).inst.examine 16).toOption) =
      [some .badMagic, some .crcMismatch, some (.emit [0x41#8]), some .headerIncomplete,
        some .bodyIncomplete] := by decide +kernel

/-- S15: total size 257 in a buffer of 256, the smallest Length that stalls it. -/
theorem witness_OversizedHeaderStallsUntilReset :
    ∃ t, (Instr.extract .present 255).wf = true ∧
      (filled 256 [] [0xAA#8, 0x55#8, 0x00#8, 0xFB#8]).Inv ∧
      (filled 256 [] [0xAA#8, 0x55#8, 0x00#8, 0xFB#8]).inst.constructed = true ∧
      (filled 256 [] [0xAA#8, 0x55#8, 0x00#8, 0xFB#8]).inst.live = .ok [0xAA#8, 0x55#8, 0x00#8, 0xFB#8] ∧
      stalledBytes 256 [0xAA#8, 0x55#8, 0x00#8, 0xFB#8] ∧
      exec (.extract .present 255) (filled 256 [] [0xAA#8, 0x55#8, 0x00#8, 0xFB#8]) = .next t ∧
      Instr.extract .present 255 ≠ .reset ∧
      ∀ capacity, Instr.extract .present 255 = .new .present capacity → capacity < 256 :=
  ⟨_, rfl, filled_inv (by decide) (by decide), rfl, filled_live (by decide), ⟨rfl, rfl, by decide⟩, rfl,
    by simp, by simp⟩

/-- U4 at its end: with `capacity = 256` a chunk of `2^17 - 1 - 256` bytes fits widths of 17 bits, one more
does not. -/
theorem test_operandFits : operandFits ⟨17, 4, none⟩ 256 (.addData none 130815) ∧
    ¬operandFits ⟨17, 4, none⟩ 256 (.addData none 130816) := by
  simp [operandFits]

/-- Widths of 17 and 4 bits: `256 + 65541 ≤ 2^17 - 1`; 7 live bytes on counters of (5, 2, 3). One
instruction for each clause: an emit, the longest chunk that fits the widths, a wire frame, a `NEW`. -/
theorem witness_WidthsHoldWithCounterRoom :
    ∃ t, (Instr.extract .present 1).wf = true ∧ (filled 256 [] frame41).Inv ∧
      (filled 256 [] frame41).inst.fitsWidths ⟨17, 4, some 256⟩ ∧
      operandFits ⟨17, 4, some 256⟩ 256 (.extract .present 1) ∧
      exec (.extract .present 1) (filled 256 [] frame41) = .next t ∧ 5 + 1 < 2 ^ 4 - 1 ∧
      2 + (7 - 0) < 2 ^ 4 - 1 ∧ 3 + (7 - 0) < 2 ^ 4 - 1 :=
  ⟨_, rfl, filled_inv (by decide) (by decide),
    ⟨by decide, by simp [filled], by decide, by decide, by decide⟩, trivial, rfl, by decide, by decide,
    by decide⟩

theorem witness_WidthsHoldWithCounterRoom_operands :
    (∃ t, (Instr.addData (some (many 130815 0#8)) 130815).wf = true ∧
      operandFits ⟨17, 4, some 256⟩ 256 (.addData (some (many 130815 0#8)) 130815) ∧
      exec (.addData (some (many 130815 0#8)) 130815) (filled 256 [] frame41) = .next t) ∧
    (∃ t, (Instr.wireFrame 1#16 [0x41#8] 0#16).wf = true ∧
      operandFits ⟨17, 4, some 256⟩ 256 (.wireFrame 1#16 [0x41#8] 0#16) ∧
      exec (.wireFrame 1#16 [0x41#8] 0#16) (filled 256 [] frame41) = .next t) ∧
    ∃ t, operandFits ⟨17, 4, some 256⟩ 256 (.new .present 256) ∧
      exec (.new .present 256) (filled 256 [] frame41) = .next t :=
  ⟨⟨_, by simp [Instr.wf, inputLengthOk], by simp [operandFits], rfl⟩,
    ⟨_, rfl, by simp [operandFits, totalSize_eq], rfl⟩, _, by simp [operandFits], rfl⟩

end Sys2Proof.Tests
end

section
/-! SUPPORT. What the decoder accepts: an instruction it reads is well formed, and the request is the one
that instruction is written with (30_encoding.md R55, R56, R47). -/

namespace Sys2Proof

theorem decodeCrc16_ok {r : List Byte} {i : Instr} (h : decodeCrc16 r = .ok i) :
    i.wf = true ∧ encode i = .command (Config.opCrc16 :: r) := by
  obtain ⟨⟨n, r1⟩, hn, h⟩ := reject_bind_eq_ok h
  obtain ⟨⟨d, r2⟩, hd, h⟩ := reject_bind_eq_ok h
  obtain ⟨rfl, rfl⟩ := endOfImage_ok h
  obtain ⟨rfl, rfl⟩ := takeBytes_ok hd
  exact ⟨rfl, by simp [encode, takeNat_ok hn]⟩

theorem decodeFrame_ok {r : List Byte} {i : Instr} (h : decodeFrame r = .ok i) :
    i.wf = true ∧ encode i = .command (Config.opFrame :: r) := by
  obtain ⟨⟨⟨payload, n⟩, r1⟩, hp, h⟩ := reject_bind_eq_ok h
  obtain ⟨⟨⟨output, cap⟩, r2⟩, ho, h⟩ := reject_bind_eq_ok h
  obtain ⟨rfl, rfl⟩ := endOfImage_ok h
  obtain ⟨hlen, rfl⟩ := takeInput_ok hp
  exact ⟨hlen, by simp [encode, takeRegion_ok ho]⟩

theorem decodeNew_ok {r : List Byte} {i : Instr} (h : decodeNew r = .ok i) :
    i.wf = true ∧ encode i = .command (Config.opNew :: r) := by
  obtain ⟨⟨⟨buffer, cap⟩, r1⟩, hb, h⟩ := reject_bind_eq_ok h
  obtain ⟨rfl, rfl⟩ := endOfImage_ok h
  exact ⟨rfl, by simp [encode, takeRegion_ok hb]⟩

theorem decodeAddData_ok {r : List Byte} {i : Instr} (h : decodeAddData r = .ok i) :
    i.wf = true ∧ encode i = .command (Config.opAddData :: r) := by
  obtain ⟨⟨⟨data, n⟩, r1⟩, hd, h⟩ := reject_bind_eq_ok h
  obtain ⟨rfl, rfl⟩ := endOfImage_ok h
  obtain ⟨hlen, rfl⟩ := takeInput_ok hd
  exact ⟨hlen, by simp [encode]⟩

theorem decodeExtract_ok {r : List Byte} {i : Instr} (h : decodeExtract r = .ok i) :
    i.wf = true ∧ encode i = .command (Config.opExtract :: r) := by
  obtain ⟨⟨⟨output, cap⟩, r1⟩, ho, h⟩ := reject_bind_eq_ok h
  obtain ⟨rfl, rfl⟩ := endOfImage_ok h
  exact ⟨rfl, by simp [encode, takeRegion_ok ho]⟩

/-- The branches of R55's table, in the order the decoder tries them. -/
theorem decodeCommand_ok {bytes : List Byte} {i : Instr} (h : decodeCommand bytes = .ok i) :
    i.wf = true ∧ encode i = .command bytes := by
  cases bytes with
  | nil => cases h
  | cons op r =>
    simp only [decodeCommand] at h
    split_ifs at h with h1 h2 h3 h4 h5 h6 h7 h8
    · exact h1 ▸ decodeCrc16_ok h
    · exact h2 ▸ decodeFrame_ok h
    · exact h3 ▸ decodeNew_ok h
    · exact h4 ▸ decodeAddData_ok h
    · exact h5 ▸ decodeExtract_ok h
    · obtain ⟨rfl, rfl⟩ := endOfImage_ok h
      exact ⟨rfl, h6 ▸ rfl⟩
    · obtain ⟨rfl, rfl⟩ := endOfImage_ok h
      exact ⟨rfl, h7 ▸ rfl⟩
    · obtain ⟨rfl, rfl⟩ := endOfImage_ok h
      exact ⟨rfl, h8 ▸ rfl⟩

theorem decode_ok {r : Request} {i : Instr} (h : decode r = .ok i) :
    i.wf = true ∧ encode i = r := by
  cases r with
  | command bytes => exact decodeCommand_ok h
  | wire bytes =>
    obtain ⟨length, payload, crc, rfl, hlen, rfl⟩ := decodeWire_ok h
    exact ⟨by simpa [Instr.wf] using hlen, rfl⟩

end Sys2Proof
end

section
/-! SUPPORT. What every instruction and every step does with the invariant (10_state.md R20): from a state
that meets it an instruction completes and keeps it, and a step completes and keeps it or is refused. -/

namespace Sys2Proof.Machine

/-! ### Instances that meet the invariant -/

/-- What a successful `NEW` makes, whatever stood there before (R83). -/
theorem fresh_inv {capacity : Nat} (h : Config.minCapacity ≤ capacity) :
    (Instance.fresh capacity).Inv where
  bufWf := .nil
  cellsInRange _ hc := nomatch hc
  offsetLe := Nat.le_refl 0
  dataLenLe := Nat.zero_le capacity
  liveWritten i _ hi := absurd hi (Nat.not_lt_zero i)
  capacityLegal _ := h

/-- What `RESET` leaves (R92): no byte is live, the cells stay. -/
theorem Instance.Inv.emptied {n : Instance} (hn : n.Inv) :
    Instance.Inv { n with dataLen := 0, offset := 0 } where
  bufWf := hn.bufWf
  cellsInRange := hn.cellsInRange
  offsetLe := Nat.le_refl 0
  dataLenLe := Nat.zero_le n.capacity
  liveWritten i _ hi := absurd hi (Nat.not_lt_zero i)
  capacityLegal := hn.capacityLegal

theorem Instance.Inv.observe_ok {n : Instance} (hn : n.Inv) : ∃ t, n.observe = .ok t := by
  obtain ⟨l, hl⟩ := hn.live_ok
  exact ⟨n.view l, observe_of_live hl⟩

/-! ### Responses that keep the invariant -/

/-- The response is no fault, and what it leaves of the block meets the invariant. -/
def KeepsInv (x : Except Fault Response) : Prop := ∃ n r, x = .ok (n, r) ∧ n.Inv

theorem keepsInv_ok {n : Instance} (hn : n.Inv) (r : Result) : KeepsInv (.ok (n, r)) :=
  ⟨n, r, rfl, hn⟩

theorem keepsInv_whenConstructed {n : Instance} {x : Except Fault Response} (hn : n.Inv)
    (hx : KeepsInv x) : KeepsInv (whenConstructed n x) := by
  unfold whenConstructed
  split
  · exact keepsInv_ok hn _
  · exact hx

theorem keepsInv_receive {n : Instance} {data : Option (List Byte)} {len : Nat} (hn : n.Inv)
    (hlen : inputLengthOk data len = true) : KeepsInv (n.receive data len) := by
  obtain ⟨t, ht⟩ := hn.observe_ok
  obtain ⟨n', r, hrun, hinv, -⟩ := receive_spec hn ht hlen
  exact ⟨n', r, hrun, hinv⟩

theorem keepsInv_extract {n : Instance} (hn : n.Inv) (output : Presence) (outputCapacity : Nat) :
    KeepsInv (n.extract output outputCapacity) := by
  obtain ⟨t, ht⟩ := hn.observe_ok
  obtain ⟨n', r, hrun, hinv, -⟩ := extract_spec output outputCapacity hn ht
  exact ⟨n', r, hrun, hinv⟩

theorem keepsInv_frameResponse {n : Instance} (hn : n.Inv) (payload : Option (List Byte))
    (payloadLen : Nat) (output : Presence) (outputCapacity : Nat) :
    KeepsInv (frameResponse n payload payloadLen output outputCapacity) := by
  unfold frameResponse
  split_ifs <;> exact keepsInv_ok hn _

/-! ### Instructions and steps -/

/-- The outcome is a next state that meets the invariant, `s` but for its fields `inst` and `result`. -/
def CompletesFrom (s : State) (o : Host.Outcome State Fault Refusal) : Prop :=
  ∃ n r, o = .next { s with inst := n, result := some r } ∧ n.Inv

theorem completesFrom_respond {x : Except Fault Response} (hx : KeepsInv x) (s : State) :
    CompletesFrom s (respond s x) := by
  obtain ⟨n, r, rfl, hn⟩ := hx
  exact ⟨n, r, rfl, hn⟩

theorem completesFrom_deliver {s : State} (hs : s.Inv) (bytes : List Byte) :
    CompletesFrom s (deliver bytes s) :=
  completesFrom_respond (keepsInv_receive hs (by simp [inputLengthOk])) s

theorem completesFrom_execNew {s : State} (hs : s.Inv) (buffer : Presence) (capacity : Nat) :
    CompletesFrom s (execNew buffer capacity s) := by
  refine completesFrom_respond ?_ s
  split
  · exact keepsInv_ok hs _
  · rename_i hargs
    exact keepsInv_ok (fresh_inv (by omega)) _

/-- Under the invariant every well-formed instruction completes and keeps it (R20, 20_memory.md R38). -/
theorem completesFrom_exec {s : State} {i : Instr} (hs : s.Inv) (hi : i.wf = true) :
    CompletesFrom s (exec i s) := by
  cases i with
  | crc16 data => exact completesFrom_respond (keepsInv_ok hs _) s
  | frame payload payloadLen output outputCapacity =>
    exact completesFrom_respond (keepsInv_frameResponse hs payload payloadLen output outputCapacity) s
  | new buffer capacity => exact completesFrom_execNew hs buffer capacity
  | addData data len => exact completesFrom_respond (keepsInv_receive hs hi) s
  | extract output outputCapacity =>
    exact completesFrom_respond (keepsInv_extract hs output outputCapacity) s
  | reset =>
    exact completesFrom_respond (keepsInv_whenConstructed hs (keepsInv_ok hs.emptied _)) s
  | usage => exact completesFrom_respond (keepsInv_whenConstructed hs (keepsInv_ok hs _)) s
  | stats => exact completesFrom_respond (keepsInv_whenConstructed hs (keepsInv_ok hs _)) s
  | wireFrame length payload crc => exact completesFrom_deliver hs (frameBytes length payload crc)

/-- A request that is no instruction: a reserved `op` is answered (R57), received bytes are delivered
(R54), and any other command bytes are refused. -/
theorem handleReject_completes_or_refused {s : State} (hs : s.Inv) (bytes : List Byte) (e : Reject) :
    CompletesFrom s (handleReject bytes e s) ∨ ∃ reason, handleReject bytes e s = .refused reason := by
  cases e with
  | reservedOp op => exact .inl (completesFrom_respond (keepsInv_ok hs _) s)
  | notAFrame => exact .inl (completesFrom_deliver hs bytes)
  | noOp => exact .inr ⟨_, rfl⟩
  | truncatedOperand => exact .inr ⟨_, rfl⟩
  | nonMinimalNatural => exact .inr ⟨_, rfl⟩
  | badPresence b => exact .inr ⟨_, rfl⟩
  | trailingBytes => exact .inr ⟨_, rfl⟩

/-- All a step can do under the invariant: it completes and keeps it, or the request is refused. -/
theorem step_keepsInv_or_refused {s : State} (hs : s.Inv) :
    (∃ t, step s = .next t ∧ t.Inv) ∨ ∃ reason, step s = .refused reason := by
  cases hp : s.pending with
  | nil => exact .inl ⟨s, step_idle hp, hs⟩
  | cons r rest =>
    have hrest : State.Inv { s with pending := rest } := hs
    cases hd : decode r with
    | ok i =>
      rw [step_decoded hp hd]
      obtain ⟨n, res, hrun, hn⟩ := completesFrom_exec hrest (decode_ok hd).1
      exact .inl ⟨_, hrun, hn⟩
    | error e =>
      rw [step_rejected hp hd]
      refine (handleReject_completes_or_refused hrest (requestBytes r) e).imp_left ?_
      rintro ⟨n, res, hrun, hn⟩
      exact ⟨_, hrun, hn⟩

theorem step_keepsInv {s t : State} (hs : s.Inv) (h : step s = .next t) : t.Inv := by
  rcases step_keepsInv_or_refused hs with ⟨u, hu, hinv⟩ | ⟨reason, hr⟩
  · cases hu.symm.trans h
    exact hinv
  · cases hr.symm.trans h

/-- A successful `NEW` leaves `Instance.fresh`, from any state whatever (R83). -/
theorem exec_new_present {capacity : Nat} (h : Config.minCapacity ≤ capacity) (s : State) :
    exec (.new .present capacity) s =
      .next { s with inst := .fresh capacity, result := some (.okValue (.num 0)) } := by
  simp [exec, execNew, Nat.not_lt.mpr h]

/-- Settles O3: a step completes with the invariant or is refused, and what `NEW` makes meets
the invariant by itself. -/
theorem everyStepKeepsInvariant : Obligations.EveryStepKeepsInvariant := by
  refine ⟨fun s t hs hstep => ?_, fun s t capacity hcap hnew => ?_⟩
  · have ht := step_keepsInv hs hstep
    exact ⟨ht, ht.offsetLe, ht.dataLenLe⟩
  · cases (exec_new_present hcap s).symm.trans hnew
    have ht := fresh_inv hcap
    exact ⟨ht, ht.offsetLe, ht.dataLenLe⟩

end Sys2Proof.Machine
end

section
/-! SUPPORT. The CRC engine as 40_crc16.md states it: the register as a natural number, and the sequence
of registers `CRC_BYTE` passes through. -/

namespace Sys2Proof.Machine

/-! ### One shift, over the naturals -/

theorem shiftLeft_one_eq_double (c : Word) : c <<< 1 = BitVec.ofNat 16 (c.toNat * 2) := by
  apply BitVec.eq_of_toNat_eq
  simp [Nat.shiftLeft_eq]

theorem highByte_eq_ofNat (b : Byte) : highByte b = BitVec.ofNat 16 (b.toNat * 256) := by
  apply BitVec.eq_of_toNat_eq
  simp [highByte, Nat.shiftLeft_eq]

theorem msb_iff_top_bit (c : Word) : c.msb = true ↔ c.toNat / 32768 = 1 := by
  rw [BitVec.msb_eq_decide, decide_eq_true_iff]
  have := c.isLt
  omega

/-- The shift of R66 with its test, over the naturals. -/
theorem crcShift_eq (c : Word) :
    crcShift c = if c.toNat / 32768 = 1 then BitVec.ofNat 16 (c.toNat * 2) ^^^ 0x1021#16
      else BitVec.ofNat 16 (c.toNat * 2) := by
  simp only [crcShift, msb_iff_top_bit, shiftLeft_one_eq_double, Config.crcPoly]

/-! ### The registers of one `CRC_BYTE` -/

/-- The register after 0, 1, … 8 shifts of `CRC_BYTE(c, b)` (R66). -/
def crcRegisters (c : Word) (b : Byte) : List Word :=
  (List.range 9).map fun k => Nat.repeat crcShift k (c ^^^ highByte b)

theorem crcRegisters_length (c : Word) (b : Byte) : (crcRegisters c b).length = 9 := by
  simp [crcRegisters]

theorem crcRegisters_first (c : Word) (b : Byte) :
    (crcRegisters c b)[0]? = some (c ^^^ BitVec.ofNat 16 (b.toNat * 256)) := by
  rw [← highByte_eq_ofNat]
  rfl

theorem crcRegisters_last (c : Word) (b : Byte) : (crcRegisters c b)[8]? = some (crcByte c b) := rfl

theorem crcRegisters_some {c : Word} {b : Byte} {k : Nat} {x : Word}
    (h : (crcRegisters c b)[k]? = some x) : Nat.repeat crcShift k (c ^^^ highByte b) = x := by
  obtain ⟨_, hx⟩ := List.getElem?_eq_some_iff.mp h
  simpa [crcRegisters] using hx

theorem crcRegisters_next {c : Word} {b : Byte} {k : Nat} {x y : Word}
    (hx : (crcRegisters c b)[k]? = some x) (hy : (crcRegisters c b)[k + 1]? = some y) :
    y = crcShift x := by
  rw [← crcRegisters_some hx, ← crcRegisters_some hy]
  rfl

/-! ### What `CRC_BYTE` depends on -/

/-- The register once the byte is in: only the high byte takes it (R66). -/
theorem xor_highByte (c : Word) (b : Byte) :
    c ^^^ highByte b = (lo8 c).setWidth 16 ^^^ highByte (hi8 c ^^^ b) := by
  conv_lhs => rw [word_split c]
  rw [BitVec.xor_assoc, ← highByte_xor]

/-- "`CRC_BYTE(c, b)` depends on `b` only through `c[15:8] ^ b`" (R66). -/
theorem crcByte_congr {c c' : Word} {b b' : Byte} (hlo : lo8 c = lo8 c')
    (hhi : hi8 c ^^^ b = hi8 c' ^^^ b') : crcByte c b = crcByte c' b' := by
  rw [crcByte, crcByte, xor_highByte, xor_highByte c', hlo, hhi]

theorem lo8_eq_of_mod_eq {c c' : Word} (h : c.toNat % 256 = c'.toNat % 256) : lo8 c = lo8 c' := by
  apply BitVec.eq_of_toNat_eq
  rw [lo8_toNat, lo8_toNat, h]

/-! ### The function `crc16` -/

theorem crc16_nil : crc16 [] = 0xFFFF#16 := rfl

theorem crc16_concat (d : List Byte) (b : Byte) : crc16 (d ++ [b]) = crcByte (crc16 d) b :=
  crc16_append d [b]

/-- `CRC16` answers in every state, from its operand alone (R68, R71). -/
theorem exec_crc16 (data : List Byte) (s : State) :
    exec (.crc16 data) s = .next { s with result := some (.okValue (.num (crc16 data).toNat)) } := rfl

end Sys2Proof.Machine
end

section
/-! The obligations of 40_crc16.md about `CRC_BYTE`, the known values and the command `CRC16`. -/

namespace Sys2Proof.Machine

/-- Settles O12: the registers of one `CRC_BYTE` are `crcRegisters`, and XORing the byte in touches the
high byte only. -/
theorem crcByteFollowsTheShifts : Obligations.CrcByteFollowsTheShifts := by
  refine ⟨fun c b => ⟨crcRegisters c b, crcRegisters_length c b, crcRegisters_first c b, ?_,
    crcRegisters_last c b⟩, by decide, by decide, ?_, by decide, by decide⟩
  · intro k x y hx hy
    rw [crcRegisters_next hx hy, crcShift_eq]
  · intro c c' b b' hlo hhi
    exact crcByte_congr (lo8_eq_of_mod_eq hlo) hhi

/-- Settles O14: the empty input leaves the initial value; the check string is a closed computation. -/
theorem crcKnownValues : Obligations.CrcKnownValues := by
  refine ⟨crc16_nil, ?_, by decide +kernel⟩
  rw [frameOf, frameBytes_eq, crc16_nil]
  decide

/-- Settles O15: the answer of `exec_crc16`, and the fold of `crc16` from its first value. -/
theorem crc16CommandAnswers : Obligations.Crc16CommandAnswers :=
  ⟨exec_crc16, crc16_nil, crc16_concat⟩

end Sys2Proof.Machine
end

section
/-! SUPPORT. What `ADD_DATA` leaves when the chunk fits (42_reconstructor_buffer.md R88, R90), as an
equation of the command with the cells it writes: behind `data_len`, or from the compacted buffer on. -/

namespace Sys2Proof.Machine

theorem live_length {n : Instance} {l : List Byte} (hl : n.live = .ok l) : l.length = n.usage :=
  (live_ok_iff.mp hl).1

/-- The cells from the cursor on hold the live bytes (R21). -/
theorem read?_of_live {n : Instance} {l : List Byte} (hl : n.live = .ok l) {i : Nat}
    (hi : i < l.length) : n.buf.read? (n.offset + i) = l[i]? := by
  rw [List.getElem?_eq_getElem hi]
  exact ((live_ok_iff.mp hl).2 i hi).2

/-! ### Which way the checks of R88 and R89 go -/

section
variable {n : Instance} {d : List Byte} (hcon : n.constructed = true) (hd : d ≠ [])
include hcon hd

theorem receive_of_fits (hfit : n.dataLen + d.length ≤ n.capacity) :
    n.receive (some d) d.length = n.appendBytes d d.length := by
  simp [Instance.receive, hcon, hd, Nat.not_lt.mpr hfit, inputBytes_some]

theorem receive_of_overflow {n' : Instance} (hover : n.capacity < n.dataLen + d.length)
    (hrun : n.compact = .ok n') :
    n.receive (some d) d.length =
      if n'.dataLen + d.length > n'.capacity then raise n' .bufferFull
      else n'.appendBytes d d.length := by
  simp [Instance.receive, hcon, hd, hover, hrun, inputBytes_some]

/-! ### The two ways a chunk that fits is stored -/

theorem receive_appends_behind {l : List Byte} (hn : n.Inv) (hl : n.live = .ok l)
    (hfit : n.dataLen + d.length ≤ n.capacity) :
    ∃ m, n.receive (some d) d.length = .ok (n.appended m d.length, .okValue (.num 0)) ∧
      (n.appended m d.length).live = .ok (l ++ d) ∧
      ∀ i, m.read? i =
        if n.dataLen ≤ i ∧ i < n.dataLen + d.length then d[i - n.dataLen]? else n.buf.read? i := by
  obtain ⟨m, hrun, -, hlive, hread⟩ := appendBytes_spec hn hfit
  exact ⟨m, (receive_of_fits hcon hd hfit).trans hrun, hlive l hl, hread⟩

/-- The cells below the new `data_len` are read off the new live bytes, which begin at index 0. -/
theorem receive_compacts_and_appends {l : List Byte} (hn : n.Inv) (hl : n.live = .ok l)
    (hover : n.capacity < n.dataLen + d.length) (hroom : l.length + d.length ≤ n.capacity) :
    ∃ m m', n.receive (some d) d.length =
        .ok ((n.compacted m).appended m' d.length, .okValue (.num 0)) ∧
      ((n.compacted m).appended m' d.length).live = .ok (l ++ d) ∧
      ∀ i, m'.read? i = if i < l.length + d.length then (l ++ d)[i]? else n.buf.read? i := by
  obtain ⟨m, hcompact, hinv, hlive, habove⟩ := compact_ok hn
  have hfit : (n.compacted m).dataLen + d.length ≤ (n.compacted m).capacity := by
    simpa [live_length hl] using hroom
  obtain ⟨m', hrun, -, hlive', hread⟩ := appendBytes_spec hinv hfit
  have hall := hlive' l (hlive l hl)
  refine ⟨m, m', ?_, hall, fun i => ?_⟩
  · rw [receive_of_overflow hcon hd hover hcompact, if_neg (Nat.not_lt.mpr hfit), hrun]
  · split
    case isTrue hi => simpa using read?_of_live hall (i := i) (by simpa using hi)
    case isFalse hi =>
      rw [live_length hl] at hi
      rw [hread, if_neg (fun h => hi h.2)]
      exact habove i (by omega)

end

end Sys2Proof.Machine
end

section
/-! The obligation of 42_reconstructor_buffer.md about `ADD_DATA` of a chunk that fits. -/

namespace Sys2Proof.Machine

/-- Settles O28: `receive_appends_behind` where the chunk fits behind `data_len`, and
`receive_compacts_and_appends` where it does not. -/
theorem addDataAppends : Obligations.AddDataAppends := by
  intro s d l hs hcon hd hl hroom
  by_cases hfit : s.inst.dataLen + d.length ≤ s.inst.capacity
  · obtain ⟨m, hrun, hlive, hread⟩ := receive_appends_behind hcon hd hs hl hfit
    refine ⟨_, congrArg (respond s) hrun, rfl, rfl, hlive, ?_, fun _ => hread,
      fun hover => absurd hfit (Nat.not_le.mpr hover)⟩
    rw [if_pos hfit]
    rfl
  · obtain ⟨m, m', hrun, hlive, hread⟩ :=
      receive_compacts_and_appends hcon hd hs hl (Nat.not_le.mp hfit) hroom
    refine ⟨_, congrArg (respond s) hrun, rfl, rfl, hlive, ?_, fun h => absurd h hfit,
      fun _ => hread⟩
    rw [if_neg hfit, live_length hl]
    rfl

end Sys2Proof.Machine
end

section
/-! SUPPORT. `EXTRACT` when it waits for more bytes and when it skips one byte
(43_reconstructor_extract.md R103, R106 to R108): the verdict at a candidate header, and what `EXTRACT`
does then, read off the buffer where it waits and off the stream model where it skips. -/

namespace Sys2Proof.Machine

/-! ### The verdict at a candidate header -/

section
variable {outputCapacity : Nat} {h l : Byte}

theorem listVerdict_bodyIncomplete {tail : List Byte} (hlen : tail.length < (be16 h l).toNat + 2) :
    listVerdict outputCapacity (Config.magic1 :: Config.magic2 :: h :: l :: tail) = .bodyIncomplete := by
  simp only [listVerdict, ne_eq, not_true_eq_false, or_self, if_false]
  split
  case h_1 hdrop =>
    have := congrArg List.length hdrop
    simp only [List.length_drop, List.length_cons] at this
    omega
  case h_2 => rfl

/-- Steps 2e and 2f at a frame that is wholly there (R107 to R109). -/
theorem listVerdict_wholeFrame {payload after : List Byte} {ch cl : Byte}
    (hlen : payload.length = (be16 h l).toNat) :
    listVerdict outputCapacity
        (Config.magic1 :: Config.magic2 :: h :: l :: (payload ++ ch :: cl :: after)) =
      if outputCapacity < payload.length then .outputTooSmall
      else if crc16 payload ≠ be16 ch cl then .crcMismatch
      else .emit payload := by
  simp only [listVerdict, ← hlen, List.drop_left, List.take_left, ne_eq, not_true_eq_false, or_self,
    if_false]

end

/-- A payload and the two bytes of its CRC field, cut off a list that is long enough. -/
theorem exists_payload_crc_after {tail : List Byte} {length : Nat} (hlen : length + 2 ≤ tail.length) :
    ∃ payload ch cl after, tail = payload ++ ch :: cl :: after ∧ payload.length = length :=
  ⟨tail.take length, tail[length], tail[length + 1], tail.drop (length + 2), by simp, by simp; omega⟩

theorem listVerdict_frameOf {outputCapacity : Nat} {p after : List Byte}
    (hp : p.length ≤ Config.maxPayload) (hcap : p.length ≤ outputCapacity) :
    listVerdict outputCapacity (frameOf p ++ after) = .emit p := by
  have hlen : p.length =
      (be16 (hi8 (BitVec.ofNat 16 p.length)) (lo8 (BitVec.ofNat 16 p.length))).toNat := by
    rw [be16_hi8_lo8, BitVec.toNat_ofNat]
    exact (Nat.mod_eq_of_lt (Nat.lt_succ_of_le hp)).symm
  simp only [frameOf, frameBytes_eq, List.cons_append, List.append_assoc, List.nil_append]
  rw [listVerdict_wholeFrame hlen, if_neg (Nat.not_lt.mpr hcap), be16_hi8_lo8,
    if_neg (not_not.mpr rfl)]

/-! ### Waiting -/

/-- The verdicts on which the loop compacts and asks for more (R103, R106). -/
def Verdict.Waits (v : Verdict) : Prop := v = .headerIncomplete ∨ v = .bodyIncomplete

theorem extractLoop_waits {n : Instance} {outputCapacity : Nat} {l : List Byte} (hl : n.live = .ok l)
    (hv : (listVerdict outputCapacity l).Waits) :
    Instance.extractLoop outputCapacity n.usage n = n.needMoreData := by
  obtain ⟨hlen, hholds⟩ := live_ok_iff.mp hl
  by_cases hpos : n.offset < n.dataLen
  · rw [extractLoop_turn hpos (examine_spec outputCapacity hlen hholds)]
    rcases hv with hv | hv <;> rw [hv]
  · rw [show n.usage = 0 from Nat.sub_eq_zero_of_le (Nat.not_lt.mp hpos), Instance.extractLoop]

/-- Step 1 does nothing, or compacts (R101). -/
theorem entryCompact_cases {n : Instance} (hn : n.Inv) :
    n.entryCompact = .ok n ∨ ∃ m, n.entryCompact = .ok (n.compacted m) ∧ (n.compacted m).Inv ∧
      ∀ l, n.live = .ok l → (n.compacted m).live = .ok l := by
  unfold Instance.entryCompact
  split
  · obtain ⟨m, hrun, hinv, hlive, -⟩ := compact_ok hn
    exact .inr ⟨m, hrun, hinv, hlive⟩
  · exact .inl rfl

/-- Waiting is a compaction with the live bytes kept, whether step 1 has compacted already or not. -/
theorem extract_waits {n : Instance} {outputCapacity : Nat} {l : List Byte} (hn : n.Inv)
    (hcon : n.constructed = true) (hl : n.live = .ok l) (hv : (listVerdict outputCapacity l).Waits) :
    ∃ m, n.extract .present outputCapacity = .ok (n.compacted m, .needMoreData) ∧
      (n.compacted m).live = .ok l := by
  have hstart : n.extract .present outputCapacity =
      n.entryCompact >>= fun n' => Instance.extractLoop outputCapacity n'.usage n' := by
    simp [Instance.extract, hcon]
  have stop : ∀ {n' : Instance}, n'.Inv → n'.live = .ok l → ∃ m,
      Instance.extractLoop outputCapacity n'.usage n' = .ok (n'.compacted m, .needMoreData) ∧
        (n'.compacted m).live = .ok l := by
    intro n' hn' hl'
    obtain ⟨m, hrun, -, hlive, -⟩ := compact_ok hn'
    exact ⟨m, by simp [extractLoop_waits hl' hv, Instance.needMoreData, hrun], hlive l hl'⟩
  rw [hstart]
  rcases entryCompact_cases hn with hrun | ⟨m, hrun, hinv, hlive⟩
  · rw [hrun]
    exact stop hn hl
  · rw [hrun]
    exact stop hinv (hlive l hl)

/-! ### The stream model: the answer, and a skipped byte -/

/-- The loop reads its list, and not the field it sets on return. -/
theorem stream_extractLoop_live (outputCapacity : Nat) (l x : List Byte) (t : StreamState) :
    StreamState.extractLoop outputCapacity l { t with live := x } =
      StreamState.extractLoop outputCapacity l t := by
  induction l generalizing t with
  | nil => rfl
  | cons b rest ih =>
    rw [stream_extractLoop_cons, stream_extractLoop_cons]
    cases listVerdict outputCapacity (b :: rest) with
    | badMagic => exact ih { t with frameErrors := t.frameErrors + 1 }
    | outputTooSmall => exact ih { t with frameErrors := t.frameErrors + 1 }
    | crcMismatch => exact ih { t with crcErrors := t.crcErrors + 1 }
    | headerIncomplete => rfl
    | lengthTooLarge => rfl
    | bodyIncomplete => rfl
    | emit p => rfl

/-- Once started, `EXTRACT` reports no error (R99, R108). -/
theorem stream_extractLoop_status (outputCapacity : Nat) (l : List Byte) (t : StreamState) :
    (StreamState.extractLoop outputCapacity l t).2.status = .ok := by
  induction l generalizing t with
  | nil => rfl
  | cons b rest ih =>
    rw [stream_extractLoop_cons]
    cases listVerdict outputCapacity (b :: rest) with
    | badMagic => exact ih _
    | outputTooSmall => exact ih _
    | crcMismatch => exact ih _
    | headerIncomplete => rfl
    | lengthTooLarge => rfl
    | bodyIncomplete => rfl
    | emit p => rfl

section
variable {t : StreamState} {outputCapacity : Nat} (hcon : t.constructed = true)
include hcon

theorem stream_exec_extract :
    t.exec (.extract .present outputCapacity) = StreamState.extractLoop outputCapacity t.live t := by
  simp [StreamState.exec, hcon]

theorem stream_exec_extract_status : (t.exec (.extract .present outputCapacity)).2.status = .ok := by
  rw [stream_exec_extract hcon, stream_extractLoop_status]

/-- R109: the payload found at the cursor is handed over. -/
theorem stream_exec_extract_of_emit {b : Byte} {rest p : List Byte} (hlive : t.live = b :: rest)
    (hv : listVerdict outputCapacity (b :: rest) = .emit p) :
    (t.exec (.extract .present outputCapacity)).2 = .emitted p := by
  rw [stream_exec_extract hcon, hlive, stream_extractLoop_cons, hv]

end

/-! ### From the stream model to the buffer -/

/-- `EXTRACT` hands back the stream model's result and leaves what the stream model leaves (R120). -/
theorem exec_extract_spec {s : State} {t : StreamState} (output : Presence) (outputCapacity : Nat)
    (hs : s.Inv) (ht : s.inst.observe = .ok t) :
    ∃ s' : State, exec (.extract output outputCapacity) s = .next s' ∧
      s'.result = some (t.exec (.extract output outputCapacity)).2 ∧
      s'.inst.observe = .ok (t.exec (.extract output outputCapacity)).1 := by
  obtain ⟨n, r, hrun, -, hobs, rfl, -⟩ := extract_spec output outputCapacity hs ht
  exact ⟨_, congrArg (respond s) hrun, rfl, hobs⟩

/-- `EXTRACT` cannot be told apart, by its owner, from the same `EXTRACT` with `n` in place of the
instance; and it reports no error. -/
def ExtractsAs (outputCapacity : Nat) (s : State) (n : Instance) : Prop :=
  ∃ (t t' : State) (r : Result), exec (.extract .present outputCapacity) s = .next t ∧
    exec (.extract .present outputCapacity) { s with inst := n } = .next t' ∧
    t.result = some r ∧ t'.result = some r ∧ r.status = .ok ∧ t.inst.observe = t'.inst.observe

/-- The cursor one byte further, and the two error counters set. -/
def Instance.oneFurther (n : Instance) (crcErrors frameErrors : Nat) : Instance :=
  { n with crcErrors := crcErrors, frameErrors := frameErrors, offset := n.offset + 1 }

theorem oneFurther_inv {n : Instance} {b : Byte} {rest : List Byte} (hn : n.Inv)
    (hl : n.live = .ok (b :: rest)) (crcErrors frameErrors : Nat) :
    (n.oneFurther crcErrors frameErrors).Inv :=
  hn.advance (k := 1) (by simp [← live_length hl]) rfl rfl rfl rfl rfl

theorem oneFurther_live {n : Instance} {b : Byte} {rest : List Byte}
    (hl : n.live = .ok (b :: rest)) (crcErrors frameErrors : Nat) :
    (n.oneFurther crcErrors frameErrors).live = .ok rest :=
  live_advance (k := 1) hl (by simp) rfl rfl rfl rfl

section
variable {s : State} {outputCapacity : Nat} {b : Byte} {rest : List Byte} (hs : s.Inv)
  (hcon : s.inst.constructed = true) (hl : s.inst.live = .ok (b :: rest))
include hs hcon hl

/-- A turn that, in the stream model, drops one byte and sets the two error counters is an `EXTRACT`
one byte further. -/
theorem extractsAs_one_further {crcErrors frameErrors : Nat}
    (hturn : StreamState.extractLoop outputCapacity (b :: rest) (s.inst.view (b :: rest)) =
      StreamState.extractLoop outputCapacity rest
        { s.inst.view (b :: rest) with crcErrors := crcErrors, frameErrors := frameErrors }) :
    ExtractsAs outputCapacity s (s.inst.oneFurther crcErrors frameErrors) := by
  have hsame : (s.inst.view (b :: rest)).exec (.extract .present outputCapacity) =
      ((s.inst.oneFurther crcErrors frameErrors).view rest).exec (.extract .present outputCapacity) := by
    rw [stream_exec_extract hcon, stream_exec_extract hcon]
    exact hturn.trans (stream_extractLoop_live outputCapacity rest rest _).symm
  obtain ⟨t, hrun, hres, hobs⟩ := exec_extract_spec .present outputCapacity hs (observe_of_live hl)
  obtain ⟨t', hrun', hres', hobs'⟩ :=
    exec_extract_spec (s := { s with inst := s.inst.oneFurther crcErrors frameErrors }) .present
      outputCapacity (oneFurther_inv hs hl _ _) (observe_of_live (oneFurther_live hl _ _))
  rw [← hsame] at hres' hobs'
  exact ⟨t, t', _, hrun, hrun', hres, hres', stream_exec_extract_status hcon, hobs.trans hobs'.symm⟩

/-- R107: one frame error and one byte. -/
theorem extractsAs_of_outputTooSmall (hv : listVerdict outputCapacity (b :: rest) = .outputTooSmall) :
    ExtractsAs outputCapacity s (s.inst.oneFurther s.inst.crcErrors (s.inst.frameErrors + 1)) :=
  extractsAs_one_further hs hcon hl (by rw [stream_extractLoop_cons, hv]; rfl)

/-- R108: one CRC error and one byte. -/
theorem extractsAs_of_crcMismatch (hv : listVerdict outputCapacity (b :: rest) = .crcMismatch) :
    ExtractsAs outputCapacity s (s.inst.oneFurther (s.inst.crcErrors + 1) s.inst.frameErrors) :=
  extractsAs_one_further hs hcon hl (by rw [stream_extractLoop_cons, hv]; rfl)

end

end Sys2Proof.Machine
end

section
/-! The obligations of 43_reconstructor_extract.md about an `EXTRACT` that waits for more bytes and one
that skips a byte at a candidate frame. -/

namespace Sys2Proof.Machine

/-- Settles O36: fewer than 4 live bytes, whatever they are, are a header not all there. -/
theorem extractWaitsForHeader : Obligations.ExtractWaitsForHeader := by
  intro s cap l hs hcon hl hshort
  obtain ⟨m, hrun, hlive⟩ :=
    extract_waits hs hcon hl (.inl (listVerdict_short (outputCapacity := cap) hshort))
  refine ⟨_, congrArg (respond s) hrun, rfl, rfl, hlive, ?_⟩
  rw [live_length hl]
  rfl

/-- Settles O38: the body is not all there, and the live bytes, which begin with the header, are kept. -/
theorem extractWaitsForBody : Obligations.ExtractWaitsForBody := by
  intro s cap h l tail hs hcon hl hlen
  have hshort : tail.length < (be16 h l).toNat + 2 := by
    simp only [List.length_cons] at hlen
    rw [be16_toNat]
    omega
  obtain ⟨m, hrun, hlive⟩ :=
    extract_waits hs hcon hl (.inr (listVerdict_bodyIncomplete (outputCapacity := cap) hshort))
  have hread : ∀ i < tail.length + 4, m.read? i = (0xAA#8 :: 0x55#8 :: h :: l :: tail)[i]? :=
    fun i hi => by simpa using read?_of_live hlive (i := i) hi
  refine ⟨_, congrArg (respond s) hrun, rfl, rfl, hlive, ?_, hread 0 (by omega), hread 1 (by omega),
    hread 2 (by omega), hread 3 (by omega)⟩
  show s.inst.compacted m = { s.inst with buf := m, dataLen := tail.length + 4, offset := 0 }
  rw [Instance.compacted, ← live_length hl]
  rfl

/-- Settles O39: a whole frame is a payload and its CRC field; the output is too small for it, or is just
large enough and the frame is valid. -/
theorem smallOutputSkipsOneByte : Obligations.SmallOutputSkipsOneByte := by
  refine ⟨fun s cap h l tail hs hcon hl hlen hcap => ?_, fun s p after hs hcon hp hl => ?_⟩
  · rw [← be16_toNat] at hlen hcap
    obtain ⟨payload, ch, cl, after, rfl, hpay⟩ := exists_payload_crc_after hlen
    rw [← hpay] at hcap
    exact extractsAs_of_outputTooSmall hs hcon hl ((listVerdict_wholeFrame hpay).trans (if_pos hcap))
  · obtain ⟨t, hrun, hres, -⟩ := exec_extract_spec .present p.length hs (observe_of_live hl)
    have hv := listVerdict_frameOf (after := after) hp (Nat.le_refl p.length)
    exact ⟨t, hrun, hres.trans (congrArg some (stream_exec_extract_of_emit hcon rfl hv))⟩

/-- Settles O40: the whole frame is there and fits the output, so its CRC decides. -/
theorem crcMismatchSkipsOneByte : Obligations.CrcMismatchSkipsOneByte := by
  intro s cap h l ch cl payload after hs hcon hl hlen hcap hcrc
  rw [← be16_toNat] at hlen hcrc
  have hne : crc16 payload ≠ be16 ch cl := fun h => hcrc (congrArg BitVec.toNat h)
  refine extractsAs_of_crcMismatch hs hcon hl ((listVerdict_wholeFrame hlen).trans ?_)
  rw [if_neg (Nat.not_lt.mpr hcap), if_pos hne]

end Sys2Proof.Machine
end

section
/-! SUPPORT. What a non-`OK` result carries and what it leaves of the instance (60_exceptions.md R130,
R133), one lemma per response of a command. -/

namespace Sys2Proof.Machine

/-- A response of a command that found the instance `n`: when it reports an error, the result is the
status and nothing else, and `n` is left as it was, or compacted under `BufferFull`. -/
def FailsCleanly (n : Instance) (x : Except Fault Response) : Prop :=
  ∀ n' r, x = .ok (n', r) → r.status ≠ .ok → r = .failed r.status ∧
    (n' = n ∨ (r.status = .bufferFull ∧ n'.offset = 0 ∧ n'.observe = n.observe))

theorem failsCleanly_of_status {n : Instance} {x : Except Fault Response}
    (h : ∀ n' r, x = .ok (n', r) → r.status = .ok) : FailsCleanly n x :=
  fun n' r hx hne => absurd (h n' r hx) hne

/-- A command that answers `OK`, whatever instance it leaves. -/
theorem failsCleanly_ok (n n' : Instance) {r : Result} (h : r.status = .ok) :
    FailsCleanly n (.ok (n', r)) :=
  failsCleanly_of_status fun _ _ hx => by cases hx; exact h

/-- A `raise` before anything was changed. -/
theorem failsCleanly_raise (n : Instance) (st : Status) : FailsCleanly n (raise n st) := by
  intro n' r hx _
  cases hx
  exact ⟨rfl, .inl rfl⟩

theorem failsCleanly_whenConstructed {n : Instance} {x : Except Fault Response}
    (hx : FailsCleanly n x) : FailsCleanly n (whenConstructed n x) := by
  unfold whenConstructed
  split
  · exact failsCleanly_raise n _
  · exact hx

theorem failsCleanly_frameResponse (n : Instance) (payload : Option (List Byte)) (payloadLen : Nat)
    (output : Presence) (outputCapacity : Nat) :
    FailsCleanly n (frameResponse n payload payloadLen output outputCapacity) := by
  unfold frameResponse
  split_ifs
  · exact failsCleanly_raise n _
  · exact failsCleanly_raise n _
  · exact failsCleanly_raise n _
  · exact failsCleanly_ok n n rfl

/-! ### `ADD_DATA` -/

theorem appendBytes_status {n n' : Instance} {bs : List Byte} {len : Nat} {r : Result}
    (h : n.appendBytes bs len = .ok (n', r)) : r.status = .ok := by
  unfold Instance.appendBytes at h
  cases hw : n.writeBytes n.dataLen bs with
  | error f => rw [hw] at h; cases h
  | ok m => rw [hw] at h; cases h; rfl

/-- A compaction moves the live bytes and is not observable (R87). -/
theorem observe_compact {n : Instance} (hn : n.Inv) :
    ∃ m, n.compact = .ok (n.compacted m) ∧ (n.compacted m).observe = n.observe := by
  obtain ⟨m, hrun, -, hlive, -⟩ := compact_ok hn
  obtain ⟨l, hl⟩ := hn.live_ok
  exact ⟨m, hrun, (observe_of_live (hlive l hl)).trans (observe_of_live hl).symm⟩

/-- The one error raised after a change: the compaction of R89 stays done when the chunk still does
not fit. -/
theorem failsCleanly_receive {n : Instance} (hn : n.Inv) (data : Option (List Byte)) (len : Nat) :
    FailsCleanly n (n.receive data len) := by
  obtain ⟨m, hrun, hobs⟩ := observe_compact hn
  simp only [Instance.receive, hrun, except_bind_ok]
  split_ifs
  · exact failsCleanly_raise n _
  · exact failsCleanly_raise n _
  · intro n' r hx _
    cases hx
    exact ⟨rfl, .inr ⟨rfl, rfl, hobs⟩⟩
  · exact failsCleanly_of_status fun _ _ => appendBytes_status
  · exact failsCleanly_of_status fun _ _ => appendBytes_status

/-! ### `EXTRACT` -/

/-- Past its two checks `EXTRACT` answers `OK`, as the stream model does (R99, R120). -/
theorem failsCleanly_extract {n : Instance} (hn : n.Inv) (output : Presence) (outputCapacity : Nat) :
    FailsCleanly n (n.extract output outputCapacity) := by
  by_cases hrefused : n.constructed = false ∨ output = .absent
  · rw [Instance.extract, if_pos hrefused]
    exact failsCleanly_raise n _
  · obtain ⟨hcon, hout⟩ := not_or.mp hrefused
    cases output with
    | absent => exact absurd rfl hout
    | present =>
      obtain ⟨l, hl⟩ := hn.live_ok
      obtain ⟨n', r, hrun, -, -, rfl, -⟩ :=
        extract_spec .present outputCapacity hn (observe_of_live hl)
      rw [hrun]
      exact failsCleanly_ok n n' (stream_exec_extract_status (Bool.eq_true_of_not_eq_false hcon))

/-! ### Every instruction -/

/-- An instruction hands back a response of the kind R133 allows. -/
theorem exec_failsCleanly (i : Instr) {s : State} (hs : s.Inv) :
    ∃ x, exec i s = respond s x ∧ FailsCleanly s.inst x := by
  cases i with
  | crc16 data => exact ⟨_, rfl, failsCleanly_ok _ _ rfl⟩
  | frame payload payloadLen output outputCapacity =>
    exact ⟨_, rfl, failsCleanly_frameResponse _ payload payloadLen output outputCapacity⟩
  | new buffer capacity =>
    refine ⟨_, rfl, ?_⟩
    split
    · exact failsCleanly_raise _ _
    · exact failsCleanly_ok _ _ rfl
  | addData data len => exact ⟨_, rfl, failsCleanly_receive hs data len⟩
  | extract output outputCapacity => exact ⟨_, rfl, failsCleanly_extract hs output outputCapacity⟩
  | reset => exact ⟨_, rfl, failsCleanly_whenConstructed (failsCleanly_ok _ _ rfl)⟩
  | usage => exact ⟨_, rfl, failsCleanly_whenConstructed (failsCleanly_ok _ _ rfl)⟩
  | stats => exact ⟨_, rfl, failsCleanly_whenConstructed (failsCleanly_ok _ _ rfl)⟩
  | wireFrame length payload crc => exact ⟨_, rfl, failsCleanly_receive hs _ _⟩

end Sys2Proof.Machine
end

section
/-! The obligation of 60_exceptions.md about what an error leaves. -/

namespace Sys2Proof.Machine

/-- Settles O51: the instruction's response fails cleanly, and the next state holds that response. -/
theorem errorsChangeNothing : Obligations.ErrorsChangeNothing := by
  intro i s t r _ hs hexec hr hne
  obtain ⟨x, hx, hclean⟩ := exec_failsCleanly i hs
  rw [hx] at hexec
  cases x with
  | error f => cases hexec
  | ok response =>
    cases hexec
    cases hr
    obtain ⟨hfailed, hinst⟩ := hclean _ _ rfl hne
    refine ⟨?_, ?_, ?_, hinst⟩ <;> rw [hfailed] <;> rfl

end Sys2Proof.Machine
end

section
/-! SUPPORT. The other way round the port: the decoder reads each encoding back
(30_encoding.md R55, R56, R47), and what it does with an `op` or a chunk that is no instruction. -/

namespace Sys2Proof

/-! ### The last operand, with nothing behind it -/

theorem takeBytes_all (d : List Byte) : takeBytes d.length d = .ok (d, []) := by
  simpa using takeBytes_append d []

theorem takeRegion_encode_last (p : Presence) (n : Nat) :
    takeRegion (encodeRegion p n) = .ok ((p, n), []) := by
  simpa using takeRegion_encode p n []

theorem takeInput_encode_last {data : Option (List Byte)} {len : Nat}
    (h : inputLengthOk data len = true) : takeInput (encodeInput data len) = .ok ((data, len), []) := by
  simpa using takeInput_encode h []

@[simp] theorem endOfImage_nil (i : Instr) : endOfImage i [] = .ok i := rfl

/-! ### Each command's operands -/

theorem decodeCrc16_encode (data : List Byte) :
    decodeCrc16 (encodeNat data.length ++ data) = .ok (.crc16 data) := by
  simp only [decodeCrc16, takeNat_encodeNat, reject_bind_ok, takeBytes_all, endOfImage_nil]

theorem decodeFrame_encode {payload : Option (List Byte)} {n : Nat} (output : Presence) (cap : Nat)
    (h : inputLengthOk payload n = true) :
    decodeFrame (encodeInput payload n ++ encodeRegion output cap) =
      .ok (.frame payload n output cap) := by
  simp only [decodeFrame, takeInput_encode h, reject_bind_ok, takeRegion_encode_last, endOfImage_nil]

theorem decodeNew_encode (buffer : Presence) (cap : Nat) :
    decodeNew (encodeRegion buffer cap) = .ok (.new buffer cap) := by
  simp only [decodeNew, takeRegion_encode_last, reject_bind_ok, endOfImage_nil]

theorem decodeAddData_encode {data : Option (List Byte)} {n : Nat} (h : inputLengthOk data n = true) :
    decodeAddData (encodeInput data n) = .ok (.addData data n) := by
  simp only [decodeAddData, takeInput_encode_last h, reject_bind_ok, endOfImage_nil]

theorem decodeExtract_encode (output : Presence) (cap : Nat) :
    decodeExtract (encodeRegion output cap) = .ok (.extract output cap) := by
  simp only [decodeExtract, takeRegion_encode_last, reject_bind_ok, endOfImage_nil]

/-- The `op` byte of each row of R55 selects that row's operands. -/
theorem decode_encode {i : Instr} (h : i.wf = true) : decode (encode i) = .ok i := by
  cases i with
  | crc16 data => exact decodeCrc16_encode data
  | frame payload n output cap => exact decodeFrame_encode output cap h
  | new buffer cap => exact decodeNew_encode buffer cap
  | addData data n => exact decodeAddData_encode h
  | extract output cap => exact decodeExtract_encode output cap
  | reset => rfl
  | usage => rfl
  | stats => rfl
  | wireFrame length payload crc => exact decodeWire_frameBytes (by simpa [Instr.wf] using h)

/-! ### What is no instruction -/

/-- Received bytes are rejected for one reason only (R54). -/
theorem decodeWire_error {bytes : List Byte} {e : Reject} (h : decodeWire bytes = .error e) :
    e = .notAFrame := by
  unfold decodeWire at h
  split at h
  · split at h
    · split at h
      · cases h
      · cases h; rfl
    · cases h; rfl
  · cases h; rfl

/-- An `op` outside the table of R55 is reserved, whatever follows it (R57). -/
theorem decodeCommand_reserved {op : Byte}
    (h : op.toNat ∉ [0x01, 0x02, 0x10, 0x11, 0x12, 0x13, 0x14, 0x15]) (operands : List Byte) :
    decodeCommand (op :: operands) = .error (.reservedOp op) := by
  have hne : ∀ known : Byte, known.toNat ∈ [0x01, 0x02, 0x10, 0x11, 0x12, 0x13, 0x14, 0x15] →
      op ≠ known := fun known hk he => h (he ▸ hk)
  simp only [decodeCommand, if_neg (hne Config.opCrc16 (by decide)),
    if_neg (hne Config.opFrame (by decide)), if_neg (hne Config.opNew (by decide)),
    if_neg (hne Config.opAddData (by decide)), if_neg (hne Config.opExtract (by decide)),
    if_neg (hne Config.opReset (by decide)), if_neg (hne Config.opUsage (by decide)),
    if_neg (hne Config.opStats (by decide))]

/-! ### A 16-bit field as a number -/

theorem be16_eq_iff {v : Word} {h l : Byte} : v = be16 h l ↔ v.toNat = h.toNat * 256 + l.toNat := by
  rw [← be16_toNat, BitVec.toNat_inj]

end Sys2Proof
end

section
/-! SUPPORT. What an instruction and a step do with the port (20_memory.md R42): an instruction answers
a response of the block and has no hold of the port, and a step takes one request off it. -/

namespace Sys2Proof.Machine

/-- An instruction is answered by a response of the block. -/
theorem exec_eq_respond (i : Instr) (s : State) : ∃ x, exec i s = respond s x := by
  cases i with
  | crc16 data => exact ⟨ret s.inst _, rfl⟩
  | frame payload payloadLen output outputCapacity => exact ⟨frameResponse s.inst _ _ _ _, rfl⟩
  | new buffer capacity => exact ⟨ite _ _ _, rfl⟩
  | addData data len => exact ⟨s.inst.receive _ _, rfl⟩
  | extract output outputCapacity => exact ⟨s.inst.extract _ _, rfl⟩
  | reset => exact ⟨whenConstructed s.inst _, rfl⟩
  | usage => exact ⟨whenConstructed s.inst _, rfl⟩
  | stats => exact ⟨whenConstructed s.inst _, rfl⟩
  | wireFrame length payload crc => exact ⟨s.inst.receive _ _, rfl⟩

theorem respond_pending {s t : State} {x : Except Fault Response} (h : respond s x = .next t) :
    t.pending = s.pending := by
  cases x with
  | error f => cases h
  | ok a => cases h; rfl

theorem exec_pending {i : Instr} {s t : State} (h : exec i s = .next t) : t.pending = s.pending := by
  obtain ⟨x, hx⟩ := exec_eq_respond i s
  exact respond_pending (hx ▸ h)

theorem handleReject_pending {bytes : List Byte} {e : Reject} {s t : State}
    (h : handleReject bytes e s = .next t) : t.pending = s.pending := by
  cases e with
  | reservedOp op => exact respond_pending (x := raise s.inst .invalidArgument) h
  | notAFrame => exact respond_pending (x := s.inst.receive (some bytes) bytes.length) h
  | noOp => cases h
  | truncatedOperand => cases h
  | nonMinimalNatural => cases h
  | badPresence b => cases h
  | trailingBytes => cases h

theorem step_pending {s t : State} (h : step s = .next t) : t.pending = s.pending.tail := by
  cases hp : s.pending with
  | nil => cases (step_idle hp).symm.trans h; exact hp
  | cons r rest =>
    cases hd : decode r with
    | ok i => exact exec_pending ((step_decoded hp hd).symm.trans h)
    | error e => exact handleReject_pending ((step_rejected hp hd).symm.trans h)

end Sys2Proof.Machine
end

section
/-! The obligations of 30_encoding.md about the decoder and the encoder, and of 20_memory.md about the
step and the port. -/

namespace Sys2Proof.Machine

/-- Settles O9, row by row of the opcode table. -/
theorem decodeInvertsEncode : Obligations.DecodeInvertsEncode := fun _ => decode_encode

/-- Settles O10: each reader accepts only what its writer writes. -/
theorem encodeInvertsDecode : Obligations.EncodeInvertsDecode := fun _ _ => decode_ok

/-- Settles O11: an accepted chunk is `frameBytes` of its fields, whose 16-bit fields are two bytes each. -/
theorem wireFramesHaveTheFormat : Obligations.WireFramesHaveTheFormat := by
  refine fun bytes length payload crc => ⟨fun hdec => ?_, ?_⟩
  · obtain ⟨length', payload', crc', hi, hlen, hbytes⟩ := decodeWire_ok hdec
    cases hi
    refine ⟨hi8 length, lo8 length, hi8 crc, lo8 crc, hbytes.trans (frameBytes_eq ..), ?_⟩
    simp only [← be16_toNat, be16_hi8_lo8, hlen, and_self]
  · rintro ⟨h, l, ch, cl, rfl, hpay, hlen, hcrc⟩
    obtain rfl := be16_eq_iff.mpr hlen
    obtain rfl := be16_eq_iff.mpr hcrc
    have hframe := decodeWire_frameBytes (crc := be16 ch cl) (hpay.trans hlen.symm)
    rw [frameBytes_eq, hi8_be16, lo8_be16, hi8_be16, lo8_be16] at hframe
    exact hframe

/-- Settles O8: the decoder is run on each word. -/
theorem writtenOutWordsDecode : Obligations.WrittenOutWordsDecode := by
  unfold Obligations.WrittenOutWordsDecode
  decide

/-- Settles O4: under the invariant a step completes or its request is refused. -/
theorem noStepFaults : Obligations.NoStepFaults := by
  intro s f hs hfault
  rcases step_keepsInv_or_refused hs with ⟨t, hnext, -⟩ | ⟨reason, hrefused⟩
  · cases hnext.symm.trans hfault
  · cases hrefused.symm.trans hfault

/-- Settles O5: what the decoder accepts is well formed, and a step runs it. -/
theorem stepRunsDecoded : Obligations.StepRunsDecoded :=
  ⟨fun _ _ _ _ hp hd => ⟨(decode_ok hd).1, step_decoded hp hd⟩, fun _ => step_idle⟩

/-- Settles O6: only the step itself touches the port. -/
theorem requestsAreTakenInOrder : Obligations.RequestsAreTakenInOrder :=
  ⟨fun _ _ => step_pending, fun _ _ _ => exec_pending⟩

/-- Settles O7: the decoder rejects the `op` as reserved, and that rejection is answered. -/
theorem reservedOpIsInvalidArgument : Obligations.ReservedOpIsInvalidArgument :=
  fun _ _ operands _ hop hp => step_rejected hp (decodeCommand_reserved hop operands)

/-- Settles O31: a chunk is one frame, whose bytes are delivered, or no frame, and is delivered itself. -/
theorem wireBytesAreAddData : Obligations.WireBytesAreAddData := by
  intro s bytes rest hp
  cases hd : decodeWire bytes with
  | ok i =>
    obtain ⟨length, payload, crc, rfl, -, rfl⟩ := decodeWire_ok hd
    exact step_decoded (i := .wireFrame length payload crc) hp hd
  | error e =>
    obtain rfl := decodeWire_error hd
    exact step_rejected (e := .notAFrame) hp hd

end Sys2Proof.Machine
end

section
/-! SUPPORT. Every instruction answers as the stream model does (43_reconstructor_extract.md R120), one
lemma per response of a command, and so does every script. -/

namespace Sys2Proof.Machine

/-! ### What an observation says of the instance -/

@[simp] theorem view_live (n : Instance) (l : List Byte) : (n.view l).live = l := rfl

section
variable {n : Instance} {v : StreamState} (h : n.observe = .ok v)
include h

theorem observed_live : n.live = .ok v.live := (observe_ok_iff.mp h).1

theorem observed_view : v = n.view v.live := (observe_ok_iff.mp h).2

theorem observed_constructed : n.constructed = v.constructed :=
  (congrArg StreamState.constructed (observed_view h)).symm

theorem observed_capacity : n.capacity = v.capacity :=
  (congrArg StreamState.capacity (observed_view h)).symm

theorem observed_packetsReceived : n.packetsReceived = v.packetsReceived :=
  (congrArg StreamState.packetsReceived (observed_view h)).symm

theorem observed_crcErrors : n.crcErrors = v.crcErrors :=
  (congrArg StreamState.crcErrors (observed_view h)).symm

theorem observed_frameErrors : n.frameErrors = v.frameErrors :=
  (congrArg StreamState.frameErrors (observed_view h)).symm

theorem observed_usage : n.usage = v.live.length := (live_length (observed_live h)).symm

/-- `RESET` leaves nothing live (R92). -/
theorem observe_emptied :
    Instance.observe { n with dataLen := 0, offset := 0 } = .ok { v with live := [] } := by
  rw [observed_view h]
  rfl

end

/-- What a successful `NEW` leaves to be observed (R83). -/
def StreamState.fresh (capacity : Nat) : StreamState where
  constructed := true
  capacity := capacity
  live := []
  packetsReceived := 0
  crcErrors := 0
  frameErrors := 0

theorem observe_fresh (capacity : Nat) :
    (Instance.fresh capacity).observe = .ok (.fresh capacity) := rfl

/-! ### Responses that answer as the stream model -/

/-- The response is no fault; it hands back the result `a.2` and leaves an instance that meets the
invariant and is observed as `a.1`. -/
def AnswersAs (x : Except Fault Response) (a : StreamState × Result) : Prop :=
  ∃ n, x = .ok (n, a.2) ∧ n.Inv ∧ n.observe = .ok a.1

theorem answersAs_ok {n : Instance} {v : StreamState} (hn : n.Inv) (hv : n.observe = .ok v)
    (r : Result) : AnswersAs (.ok (n, r)) (v, r) := ⟨n, rfl, hn, hv⟩

section
variable {n : Instance} {v : StreamState} (hn : n.Inv) (hv : n.observe = .ok v)
include hn hv

theorem answersAs_whenConstructed {x : Except Fault Response} {a : StreamState × Result}
    (hx : AnswersAs x a) : AnswersAs (whenConstructed n x) (v.whenConstructed a) := by
  unfold whenConstructed StreamState.whenConstructed
  rw [← observed_constructed hv]
  split
  · exact answersAs_ok hn hv _
  · exact hx

theorem answersAs_frameResponse (payload : Option (List Byte)) (payloadLen : Nat) (output : Presence)
    (outputCapacity : Nat) :
    AnswersAs (frameResponse n payload payloadLen output outputCapacity)
      (v.exec (.frame payload payloadLen output outputCapacity)) := by
  simp only [frameResponse, StreamState.exec]
  split_ifs <;> exact answersAs_ok hn hv _

theorem answersAs_new (buffer : Presence) (capacity : Nat) :
    AnswersAs
      (if buffer = .absent ∨ capacity < Config.minCapacity then raise n .invalidArgument
        else ret (.fresh capacity) (.num 0))
      (v.exec (.new buffer capacity)) := by
  simp only [StreamState.exec]
  split_ifs with hargs
  · exact answersAs_ok hn hv _
  · exact answersAs_ok (fresh_inv (by omega)) (observe_fresh capacity) _

theorem answersAs_receive {data : Option (List Byte)} {len : Nat}
    (hlen : inputLengthOk data len = true) : AnswersAs (n.receive data len) (v.receive data len) := by
  obtain ⟨n', r, hrun, hinv, hobs, rfl⟩ := receive_spec hn hv hlen
  exact ⟨n', hrun, hinv, hobs⟩

theorem answersAs_extract (output : Presence) (outputCapacity : Nat) :
    AnswersAs (n.extract output outputCapacity) (v.exec (.extract output outputCapacity)) := by
  obtain ⟨n', r, hrun, hinv, hobs, rfl, -⟩ := extract_spec output outputCapacity hn hv
  exact ⟨n', hrun, hinv, hobs⟩

theorem answersAs_reset :
    AnswersAs (whenConstructed n (ret { n with dataLen := 0, offset := 0 } (.num 0)))
      (v.exec .reset) :=
  answersAs_whenConstructed hn hv (answersAs_ok hn.emptied (observe_emptied hv) _)

theorem answersAs_usage :
    AnswersAs (whenConstructed n (ret n (.num n.usage))) (v.exec .usage) := by
  rw [observed_usage hv]
  exact answersAs_whenConstructed hn hv (answersAs_ok hn hv _)

theorem answersAs_stats :
    AnswersAs (whenConstructed n (ret n (.counters n.packetsReceived n.crcErrors n.frameErrors)))
      (v.exec .stats) := by
  rw [observed_packetsReceived hv, observed_crcErrors hv, observed_frameErrors hv]
  exact answersAs_whenConstructed hn hv (answersAs_ok hn hv _)

end

/-! ### Instructions and scripts -/

theorem respond_answersAs {s : State} {x : Except Fault Response} {a : StreamState × Result}
    (h : AnswersAs x a) :
    ∃ t : State, respond s x = .next t ∧ t.Inv ∧ t.inst.observe = .ok a.1 ∧ t.result = some a.2 := by
  obtain ⟨n, rfl, hn, hobs⟩ := h
  exact ⟨_, rfl, hn, hobs, rfl⟩

/-- A well-formed instruction completes, keeps the invariant, and answers as the stream model (R120). -/
theorem exec_refines {i : Instr} {s : State} {v : StreamState} (hi : i.wf = true) (hs : s.Inv)
    (hv : s.inst.observe = .ok v) :
    ∃ t : State, exec i s = .next t ∧ t.Inv ∧ t.inst.observe = .ok (v.exec i).1 ∧
      t.result = some (v.exec i).2 := by
  cases i with
  | crc16 data => exact respond_answersAs (answersAs_ok hs hv (.okValue (.num (crc16 data).toNat)))
  | frame payload payloadLen output outputCapacity =>
    exact respond_answersAs (answersAs_frameResponse hs hv _ _ _ _)
  | new buffer capacity => exact respond_answersAs (answersAs_new hs hv buffer capacity)
  | addData data len => exact respond_answersAs (answersAs_receive hs hv hi)
  | extract output outputCapacity => exact respond_answersAs (answersAs_extract hs hv _ _)
  | reset => exact respond_answersAs (answersAs_reset hs hv)
  | usage => exact respond_answersAs (answersAs_usage hs hv)
  | stats => exact respond_answersAs (answersAs_stats hs hv)
  | wireFrame length payload crc =>
    exact respond_answersAs (answersAs_receive hs hv (by simp [inputLengthOk]))

/-- The same of an outcome one already has. -/
theorem next_refines {i : Instr} {s t : State} {v : StreamState} (hi : i.wf = true) (hs : s.Inv)
    (hv : s.inst.observe = .ok v) (h : exec i s = .next t) :
    t.inst.observe = .ok (v.exec i).1 ∧ t.result = some (v.exec i).2 := by
  obtain ⟨u, hu, -, hobs, hres⟩ := exec_refines hi hs hv
  cases hu.symm.trans h
  exact ⟨hobs, hres⟩

/-- A script run on the stream model. -/
def StreamState.runScript : List Instr → StreamState → StreamState × List Result
  | [], v => (v, [])
  | i :: rest, v =>
    ((runScript rest (v.exec i).1).1, (v.exec i).2 :: (runScript rest (v.exec i).1).2)

/-- A script of well-formed instructions completes with the results the stream model gives. -/
theorem runScript_refines {script : List Instr} {s : State} {v : StreamState}
    (hwf : ∀ i ∈ script, i.wf = true) (hs : s.Inv) (hv : s.inst.observe = .ok v) :
    ∃ t : State, runScript script s = .next (t, (v.runScript script).2) ∧ t.Inv ∧
      t.inst.observe = .ok (v.runScript script).1 := by
  induction script generalizing s v with
  | nil => exact ⟨s, rfl, hs, hv⟩
  | cons i rest ih =>
    obtain ⟨hi, hrest⟩ := List.forall_mem_cons.mp hwf
    obtain ⟨u, hrun, hu, hobs, hres⟩ := exec_refines hi hs hv
    obtain ⟨t, hscript, ht, hobs'⟩ := ih hrest hu hobs
    exact ⟨t, by simp [runScript, hrun, hscript, hres, StreamState.runScript], ht, hobs'⟩

end Sys2Proof.Machine
end

section
/-! SUPPORT. What an instruction does to what is observable, read off the stream model: it leaves it,
starts it afresh, empties it, appends to the live bytes, or is an `EXTRACT` with its skips and its emit. -/

namespace Sys2Proof.Machine

/-! ### One run of the `EXTRACT` loop -/

/-- `frame` bytes skipped as frame errors, `crc` as CRC errors, and `rest` left live. -/
def StreamState.skipped (t : StreamState) (frame crc : Nat) (rest : List Byte) : StreamState :=
  { t with live := rest, frameErrors := t.frameErrors + frame, crcErrors := t.crcErrors + crc }

theorem skipped_of_raised (t : StreamState) (f c frame crc : Nat) (rest : List Byte) :
    StreamState.skipped { t with frameErrors := t.frameErrors + f, crcErrors := t.crcErrors + c }
      frame crc rest = t.skipped (f + frame) (c + crc) rest := by
  simp only [StreamState.skipped, Nat.add_assoc]

/-- A packet counted (R109). -/
def StreamState.withPacket (t : StreamState) : StreamState :=
  { t with packetsReceived := t.packetsReceived + 1 }

/-- What the loop does with the live bytes `l`, whatever the counters are: after some skips it waits with
`rest` live, or emits `p` and leaves `rest`. -/
inductive LoopRun (outputCapacity : Nat) (l : List Byte) : Prop
  | waits (frame crc : Nat) (rest : List Byte) (hlen : l.length = rest.length + frame + crc)
      (hrun : ∀ t, StreamState.extractLoop outputCapacity l t =
        (t.skipped frame crc rest, .needMoreData))
  | emits (frame crc : Nat) (rest p : List Byte)
      (hlen : l.length = rest.length + frame + crc + (p.length + 6))
      (hcap : p.length ≤ outputCapacity) (hmax : p.length ≤ 65535)
      (hrun : ∀ t, StreamState.extractLoop outputCapacity l t =
        ((t.skipped frame crc rest).withPacket, .emitted p))

/-- A skipped byte, counted once under one of the two error counters (R104, R107, R108). -/
theorem loopRun_of_skip {outputCapacity f c : Nat} {b : Byte} {rest : List Byte} (hone : f + c = 1)
    (hturn : ∀ t, StreamState.extractLoop outputCapacity (b :: rest) t =
      StreamState.extractLoop outputCapacity rest
        { t with frameErrors := t.frameErrors + f, crcErrors := t.crcErrors + c })
    (h : LoopRun outputCapacity rest) : LoopRun outputCapacity (b :: rest) := by
  cases h with
  | waits frame crc left hlen hrun =>
    refine .waits (f + frame) (c + crc) left (by simp only [List.length_cons]; omega) fun t => ?_
    rw [hturn, hrun, skipped_of_raised]
  | emits frame crc left p hlen hcap hmax hrun =>
    refine .emits (f + frame) (c + crc) left p (by simp only [List.length_cons]; omega) hcap hmax
      fun t => ?_
    rw [hturn, hrun, skipped_of_raised]

/-- The payload at the cursor is as long as its 2-byte Length says (R49). -/
theorem listVerdict_emit_le_maxPayload {outputCapacity : Nat} {l p : List Byte}
    (h : listVerdict outputCapacity l = .emit p) : p.length ≤ 65535 := by
  unfold listVerdict at h
  split at h
  · split at h
    · cases h
    · split at h
      · split_ifs at h
        cases h
        exact (List.length_take_le _ _).trans (be16_le_maxPayload _ _)
      · cases h
  · cases h

/-- All one run of the loop can do (R99, R112, R119). -/
theorem loopRun (outputCapacity : Nat) (l : List Byte) : LoopRun outputCapacity l := by
  induction l with
  | nil => exact .waits 0 0 [] rfl fun _ => rfl
  | cons b rest ih =>
    have hturn := stream_extractLoop_cons outputCapacity b rest
    cases hv : listVerdict outputCapacity (b :: rest) <;> simp only [hv] at hturn
    case badMagic => exact loopRun_of_skip (f := 1) (c := 0) rfl hturn ih
    case outputTooSmall => exact loopRun_of_skip (f := 1) (c := 0) rfl hturn ih
    case crcMismatch => exact loopRun_of_skip (f := 0) (c := 1) rfl hturn ih
    case headerIncomplete => exact .waits 0 0 (b :: rest) rfl hturn
    case bodyIncomplete => exact .waits 0 0 (b :: rest) rfl hturn
    case lengthTooLarge => exact absurd hv (listVerdict_ne_lengthTooLarge _ _)
    case emit p =>
      obtain ⟨hlen, hcap⟩ := listVerdict_emit_length hv
      refine .emits 0 0 ((b :: rest).drop (p.length + 6)) p ?_ hcap
        (listVerdict_emit_le_maxPayload hv) hturn
      rw [List.length_drop]
      omega

/-- How far the loop raises the error counters does not depend on where they stand. -/
theorem exists_stream_extractLoop_errors (outputCapacity : Nat) (l : List Byte) :
    ∃ frame crc, ∀ t,
      (StreamState.extractLoop outputCapacity l t).1.frameErrors = t.frameErrors + frame ∧
      (StreamState.extractLoop outputCapacity l t).1.crcErrors = t.crcErrors + crc := by
  cases loopRun outputCapacity l with
  | waits frame crc _ _ hrun => exact ⟨frame, crc, fun t => by rw [hrun]; exact ⟨rfl, rfl⟩⟩
  | emits frame crc _ _ _ _ _ hrun => exact ⟨frame, crc, fun t => by rw [hrun]; exact ⟨rfl, rfl⟩⟩

/-! ### Every instruction -/

/-- What an instruction can make of `v`. -/
inductive StreamState.Change (v : StreamState) : Instr → StreamState → Prop
  | keeps (i : Instr) : v.Change i v
  | starts (capacity : Nat) (hcap : 256 ≤ capacity) : v.Change (.new .present capacity) (.fresh capacity)
  | empties : v.Change .reset { v with live := [] }
  | appends (i : Instr) (d : List Byte) : v.Change i { v with live := v.live ++ d }
  | waits (output : Presence) (outputCapacity frame crc : Nat) (rest : List Byte)
      (hlen : v.live.length = rest.length + frame + crc) :
      v.Change (.extract output outputCapacity) (v.skipped frame crc rest)
  | emits (output : Presence) (outputCapacity frame crc : Nat) (rest p : List Byte)
      (hlen : v.live.length = rest.length + frame + crc + (p.length + 6)) :
      v.Change (.extract output outputCapacity) (v.skipped frame crc rest).withPacket

theorem change_whenConstructed {v : StreamState} {i : Instr} {a : StreamState × Result}
    (h : v.Change i a.1) : v.Change i (v.whenConstructed a).1 := by
  unfold StreamState.whenConstructed
  split
  · exact .keeps i
  · exact h

theorem change_receive (v : StreamState) (i : Instr) (data : Option (List Byte)) (len : Nat) :
    v.Change i (v.receive data len).1 := by
  unfold StreamState.receive
  split_ifs
  · exact .keeps i
  · exact .keeps i
  · exact .appends i _

theorem change_new (v : StreamState) (buffer : Presence) (capacity : Nat) :
    v.Change (.new buffer capacity) (v.exec (.new buffer capacity)).1 := by
  simp only [StreamState.exec]
  split_ifs with hargs
  · exact .keeps _
  · obtain ⟨hbuffer, hcap⟩ := not_or.mp hargs
    cases buffer with
    | absent => exact absurd rfl hbuffer
    | present => exact .starts capacity (Nat.not_lt.mp hcap)

theorem change_extract (v : StreamState) (output : Presence) (outputCapacity : Nat) :
    v.Change (.extract output outputCapacity) (v.exec (.extract output outputCapacity)).1 := by
  simp only [StreamState.exec]
  split_ifs
  · exact .keeps _
  · cases loopRun outputCapacity v.live with
    | waits frame crc rest hlen hrun =>
      rw [hrun]
      exact .waits _ _ _ _ _ hlen
    | emits frame crc rest p hlen _ _ hrun =>
      rw [hrun]
      exact .emits _ _ _ _ _ p hlen

theorem stream_exec_change (v : StreamState) (i : Instr) : v.Change i (v.exec i).1 := by
  cases i with
  | crc16 data => exact .keeps _
  | frame payload payloadLen output outputCapacity => exact .keeps _
  | new buffer capacity => exact change_new v buffer capacity
  | addData data len => exact change_receive v _ data len
  | extract output outputCapacity => exact change_extract v output outputCapacity
  | reset => exact change_whenConstructed .empties
  | usage => exact change_whenConstructed (.keeps _)
  | stats => exact change_whenConstructed (.keeps _)
  | wireFrame length payload crc => exact change_receive v _ _ _

/-- An instruction's outcome, observed, is one of the changes of `StreamState.Change`. -/
theorem exec_change {i : Instr} {s t : State} (hi : i.wf = true) (hs : s.Inv)
    (h : exec i s = .next t) :
    ∃ v w, s.inst.observe = .ok v ∧ t.inst.observe = .ok w ∧ v.Change i w := by
  obtain ⟨v, hv⟩ := hs.observe_ok
  exact ⟨v, _, hv, (next_refines hi hs hv h).1, stream_exec_change v i⟩

end Sys2Proof.Machine
end

section
/-! SUPPORT. `EXTRACT` at a header that declares more than the buffer can hold (70_reset_and_hazards.md
R151): its body never comes, so nothing but `RESET` and `NEW` takes the bytes away. -/

namespace Sys2Proof.Machine

/-- Waiting in the stream model leaves everything as it was (R103, R106). -/
theorem stream_extractLoop_waits {outputCapacity : Nat} {l : List Byte}
    (hv : (listVerdict outputCapacity l).Waits) (t : StreamState) :
    StreamState.extractLoop outputCapacity l t = ({ t with live := l }, .needMoreData) := by
  cases l with
  | nil => rfl
  | cons b rest =>
    rw [stream_extractLoop_cons]
    rcases hv with hv | hv <;> rw [hv]

theorem stalledBytes_append {capacity : Nat} {l : List Byte} (h : stalledBytes capacity l)
    (more : List Byte) : stalledBytes capacity (l ++ more) :=
  match l, h with
  | _ :: _ :: _ :: _ :: _, h => h

/-- No buffer of this capacity holds the whole frame. -/
theorem waits_of_stalledBytes {capacity : Nat} {l : List Byte} (h : stalledBytes capacity l)
    (hlen : l.length ≤ capacity) (outputCapacity : Nat) : (listVerdict outputCapacity l).Waits :=
  match l, h with
  | m1 :: m2 :: hb :: lb :: tail, ⟨h1, h2, hbig⟩ => by
    subst h1 h2
    refine .inr (listVerdict_bodyIncomplete ?_)
    simp only [List.length_cons] at hlen
    rw [totalSize_eq] at hbig
    omega

section
variable {v : StreamState} (hcon : v.constructed = true) (hstall : stalledBytes v.capacity v.live)
  (hlen : v.live.length ≤ v.capacity)
include hcon hstall hlen

theorem stream_exec_extract_stalled (outputCapacity : Nat) :
    v.exec (.extract .present outputCapacity) = (v, .needMoreData) := by
  rw [stream_exec_extract hcon,
    stream_extractLoop_waits (waits_of_stalledBytes hstall hlen outputCapacity)]

theorem stream_exec_extract_stalled_state (output : Presence) (outputCapacity : Nat) :
    (v.exec (.extract output outputCapacity)).1 = v := by
  cases output with
  | absent => simp [StreamState.exec]
  | present => rw [stream_exec_extract_stalled hcon hstall hlen]

/-- Until a `RESET` or a successful `NEW` nothing happens but that bytes are added. -/
theorem stream_exec_stalled {i : Instr} (hreset : i ≠ .reset)
    (hnew : ∀ capacity, i = .new .present capacity → capacity < 256) :
    ∃ more, (v.exec i).1 = { v with live := v.live ++ more } := by
  have hchange := stream_exec_change v i
  generalize hw : (v.exec i).1 = w at hchange
  have hsame : w = v → ∃ more, w = { v with live := v.live ++ more } :=
    fun h => ⟨[], by rw [h, List.append_nil]⟩
  cases hchange with
  | keeps => exact hsame rfl
  | starts capacity hcap => exact absurd (hnew capacity rfl) (Nat.not_lt.mpr hcap)
  | empties => exact absurd rfl hreset
  | appends _ d => exact ⟨d, rfl⟩
  | waits output outputCapacity =>
    exact hsame (hw ▸ stream_exec_extract_stalled_state hcon hstall hlen output outputCapacity)
  | emits output outputCapacity =>
    exact hsame (hw ▸ stream_exec_extract_stalled_state hcon hstall hlen output outputCapacity)

end

end Sys2Proof.Machine
end

section
/-! The obligations that compare the buffer with what is observable of it (43_reconstructor_extract.md
R120, 10_state.md R26), and those read off the stream model's changes. -/

namespace Sys2Proof.Machine

/-- Settles O49: each response answers as the stream model (`exec_refines`). -/
theorem bufferModelRefinesStreamModel : Obligations.BufferModelRefinesStreamModel := by
  intro i s hi hs
  obtain ⟨v, hv⟩ := hs.observe_ok
  exact ⟨v, hv, (observed_constructed hv).symm, (observed_capacity hv).symm, observed_live hv,
    exec_refines hi hs hv⟩

/-- Settles O50: both states answer as the one stream model state they are observed as. -/
theorem onlyObservablesMatter : Obligations.OnlyObservablesMatter := by
  intro i s s' hi hs hs' hsame
  obtain ⟨v, hv⟩ := hs.observe_ok
  obtain ⟨t, hrun, -, hobs, hres⟩ := exec_refines hi hs hv
  obtain ⟨t', hrun', -, hobs', hres'⟩ := exec_refines hi hs' (hsame.symm.trans hv)
  exact ⟨t, t', hrun, hrun', hres.trans hres'.symm, hobs.trans hobs'.symm⟩

/-- Settles O55: the live bytes never reach the declared size, so the stream model waits. -/
theorem oversizedHeaderStallsUntilReset : Obligations.OversizedHeaderStallsUntilReset := by
  intro i s t l hi hs hcon hl hstall hexec hreset hnew
  have hlen : l.length ≤ s.inst.capacity := live_length hl ▸ usage_le_capacity hs
  obtain ⟨hobs, hres⟩ := next_refines hi hs (observe_of_live hl) hexec
  obtain ⟨more, hmore⟩ :=
    stream_exec_stalled (v := s.inst.view l) hcon hstall hlen hreset hnew
  rw [hmore] at hobs
  refine ⟨⟨more, observed_live hobs, ?_⟩, observed_packetsReceived hobs, observed_crcErrors hobs,
    observed_frameErrors hobs, ?_⟩
  · rw [observed_capacity hobs]
    exact stalledBytes_append hstall more
  · rintro cap rfl
    rw [hres, stream_exec_extract_stalled (v := s.inst.view l) hcon hstall hlen]

/-- Settles O53: of the changes, only `starts` lowers a counter, and only those of `EXTRACT` raise one. -/
theorem countersNeverDecrease : Obligations.CountersNeverDecrease := by
  intro i s t hi hs hexec hnew
  obtain ⟨v, w, hv, hw, hchange⟩ := exec_change hi hs hexec
  rw [observed_packetsReceived hv, observed_crcErrors hv, observed_frameErrors hv,
    observed_packetsReceived hw, observed_crcErrors hw, observed_frameErrors hw]
  cases hchange with
  | keeps => simp
  | starts capacity hcap => exact absurd (hnew capacity rfl) (Nat.not_lt.mpr hcap)
  | empties => simp
  | appends => simp
  | waits => simp [StreamState.skipped]
  | emits => simp [StreamState.skipped, StreamState.withPacket]

/-- Settles O54: of the changes, only `starts` sets the two fields. -/
theorem onlyNewSetsCapacity : Obligations.OnlyNewSetsCapacity := by
  intro i s t hi hs hexec
  obtain ⟨v, w, hv, hw, hchange⟩ := exec_change hi hs hexec
  rw [observed_constructed hv, observed_capacity hv, observed_constructed hw, observed_capacity hw]
  cases hchange with
  | keeps => simp
  | starts => simp [StreamState.fresh]
  | empties => simp
  | appends => simp
  | waits => simp [StreamState.skipped]
  | emits => simp [StreamState.skipped, StreamState.withPacket]

end Sys2Proof.Machine
end

section
/-! SUPPORT. `EXTRACT` on the instance: where step 1 leads, an emit at the cursor, and the turns of the
loop by what they do to the counters (43_reconstructor_extract.md R101 to R111). -/

namespace Sys2Proof.Machine

/-! ### Step 1 -/

theorem extract_eq_entryCompact_loop {n : Instance} (hcon : n.constructed = true)
    (outputCapacity : Nat) :
    n.extract .present outputCapacity =
      n.entryCompact >>= fun n' => Instance.extractLoop outputCapacity n'.usage n' := by
  simp [Instance.extract, hcon]

theorem entryCompact_of_threshold {n : Instance} (h : Config.compactThreshold ≤ n.offset) :
    n.entryCompact = n.compact :=
  if_pos ⟨h, Nat.lt_of_lt_of_le (by decide) h⟩

theorem entryCompact_of_below {n : Instance} (h : n.offset < Config.compactThreshold) :
    n.entryCompact = .ok n :=
  if_neg fun hc => absurd hc.1 (Nat.not_le.mpr h)

/-- There is nothing to move when the cursor is at index 0 (R86). -/
theorem compact_of_offset_zero {n : Instance} (h : n.offset = 0) : n.compact = .ok n := by
  simp [Instance.compact, h]

/-- From the threshold on, `EXTRACT` is an `EXTRACT` of the compacted instance (R101). -/
theorem extract_of_compact {n n' : Instance} (hn : n.Inv) (hcon : n.constructed = true)
    (hoff : Config.compactThreshold ≤ n.offset) (hrun : n.compact = .ok n') (outputCapacity : Nat) :
    n'.offset = 0 ∧ n.extract .present outputCapacity = n'.extract .present outputCapacity := by
  obtain ⟨m, hm, -⟩ := compact_ok hn
  cases hm.symm.trans hrun
  refine ⟨rfl, ?_⟩
  rw [extract_eq_entryCompact_loop hcon,
    extract_eq_entryCompact_loop (n := n.compacted m) hcon, entryCompact_of_threshold hoff, hrun,
    entryCompact_of_below (by simp [Config.compactThreshold])]

/-! ### An emit at the cursor -/

theorem extractLoop_emits {n : Instance} {outputCapacity : Nat} {l p : List Byte}
    (hl : n.live = .ok l) (hv : listVerdict outputCapacity l = .emit p) :
    Instance.extractLoop outputCapacity n.usage n = n.emitPayload p := by
  obtain ⟨hlen, hholds⟩ := live_ok_iff.mp hl
  have hexamine := examine_spec outputCapacity hlen hholds
  rw [hv] at hexamine
  have hsize := (listVerdict_emit_length hv).1
  simp only [Instance.usage] at hlen
  rw [extractLoop_turn (by omega) hexamine]

/-- `EXTRACT` with a valid frame at the cursor is step 1 and the emit (R109). -/
theorem extract_emits {n : Instance} {outputCapacity : Nat} {l p : List Byte} (hn : n.Inv)
    (hcon : n.constructed = true) (hl : n.live = .ok l)
    (hv : listVerdict outputCapacity l = .emit p) :
    n.extract .present outputCapacity = n.entryCompact >>= fun n' => n'.emitPayload p := by
  obtain ⟨n', hrun, -, hlive, -⟩ := entryCompact_spec hn
  rw [extract_eq_entryCompact_loop hcon, hrun, except_bind_ok, except_bind_ok,
    extractLoop_emits (hlive l hl) hv]

/-! ### Refusals, and a skip at bytes that are no header -/

/-- The stream model's `EXTRACT` past its two checks is its loop. -/
theorem stream_exec_extract_runs {v : StreamState} {output : Presence}
    (h : ¬(v.constructed = false ∨ output = .absent)) (outputCapacity : Nat) :
    v.exec (.extract output outputCapacity) = StreamState.extractLoop outputCapacity v.live v :=
  if_neg h

theorem extract_refused {n : Instance} {output : Presence}
    (h : n.constructed = false ∨ output = .absent) (outputCapacity : Nat) :
    n.extract output outputCapacity = .ok (n, .failed .invalidArgument) :=
  if_pos h

theorem listVerdict_badMagic {outputCapacity : Nat} {b0 b1 b2 b3 : Byte} (tail : List Byte)
    (h : b0 ≠ Config.magic1 ∨ b1 ≠ Config.magic2) :
    listVerdict outputCapacity (b0 :: b1 :: b2 :: b3 :: tail) = .badMagic :=
  if_pos h

/-- R104: one frame error and one byte. -/
theorem extractsAs_of_badMagic {s : State} {outputCapacity : Nat} {b : Byte} {rest : List Byte}
    (hs : s.Inv) (hcon : s.inst.constructed = true) (hl : s.inst.live = .ok (b :: rest))
    (hv : listVerdict outputCapacity (b :: rest) = .badMagic) :
    ExtractsAs outputCapacity s (s.inst.oneFurther s.inst.crcErrors (s.inst.frameErrors + 1)) :=
  extractsAs_one_further hs hcon hl (by rw [stream_extractLoop_cons, hv]; rfl)

/-! ### The turns of the loop, told apart by the counters -/

/-- A response that leaves these two error counters. -/
def LeavesErrors (x : Except Fault Response) (frameErrors crcErrors : Nat) : Prop :=
  ∃ n r, x = .ok (n, r) ∧ n.frameErrors = frameErrors ∧ n.crcErrors = crcErrors

theorem leavesErrors_unique {x : Except Fault Response} {f c f' c' : Nat} (h : LeavesErrors x f c)
    (h' : LeavesErrors x f' c') : f = f' ∧ c = c' := by
  obtain ⟨n, r, rfl, rfl, rfl⟩ := h
  obtain ⟨n', r', hx, rfl, rfl⟩ := h'
  cases hx
  exact ⟨rfl, rfl⟩

theorem exists_extractLoop_leavesErrors {n : Instance} {b : Byte} {rest : List Byte} (hn : n.Inv)
    (hl : n.live = .ok (b :: rest)) (outputCapacity : Nat) :
    ∃ frame crc, ∀ crcErrors frameErrors,
      LeavesErrors
        (Instance.extractLoop outputCapacity rest.length (n.oneFurther crcErrors frameErrors))
        (frameErrors + frame) (crcErrors + crc) := by
  obtain ⟨frame, crc, herrors⟩ := exists_stream_extractLoop_errors outputCapacity rest
  refine ⟨frame, crc, fun crcErrors frameErrors => ?_⟩
  obtain ⟨n', r, hrun, -, hobs, -⟩ :=
    extractLoop_spec outputCapacity [] (oneFurther_inv hn hl crcErrors frameErrors)
      (oneFurther_live hl crcErrors frameErrors)
  obtain ⟨hframe, hcrc⟩ := herrors ((n.oneFurther crcErrors frameErrors).view [])
  exact ⟨n', r, hrun, (observed_frameErrors hobs).trans hframe, (observed_crcErrors hobs).trans hcrc⟩

/-- What a turn does: skips a byte under one of two counters, emits, or waits. -/
inductive TurnKind where
  | frameError
  | crcError
  | emit
  | wait

/-- What the turn does that finds this (R103 to R109). -/
def Verdict.kind : Verdict → TurnKind
  | .headerIncomplete => .wait
  | .badMagic => .frameError
  | .lengthTooLarge => .frameError
  | .bodyIncomplete => .wait
  | .outputTooSmall => .frameError
  | .crcMismatch => .crcError
  | .emit _ => .emit

/-- The loop, entered at `n` with its bound of turns, does first what `kind` says. -/
def Instance.Turns (n : Instance) (outputCapacity : Nat) : TurnKind → Prop
  | .frameError =>
    Instance.extractLoop outputCapacity n.usage n =
      Instance.extractLoop outputCapacity (n.usage - 1) (n.oneFurther n.crcErrors (n.frameErrors + 1))
  | .crcError =>
    Instance.extractLoop outputCapacity n.usage n =
      Instance.extractLoop outputCapacity (n.usage - 1) (n.oneFurther (n.crcErrors + 1) n.frameErrors)
  | .emit => ∃ p, Instance.extractLoop outputCapacity n.usage n = n.emitPayload p
  | .wait => ∃ n', n.compact = .ok n' ∧
      Instance.extractLoop outputCapacity n.usage n = .ok (n', .needMoreData)

theorem turns_wait {n : Instance} {outputCapacity : Nat} (hn : n.Inv)
    (h : Instance.extractLoop outputCapacity n.usage n = n.needMoreData) :
    n.Turns outputCapacity .wait := by
  obtain ⟨m, hm, -⟩ := compact_ok hn
  exact ⟨n.compacted m, hm, by rw [h, Instance.needMoreData, hm, except_bind_ok]⟩

theorem turns_kind {n : Instance} {outputCapacity : Nat} {v : Verdict} (hn : n.Inv)
    (hpos : n.offset < n.dataLen) (hv : n.examine outputCapacity = .ok v) :
    n.Turns outputCapacity v.kind := by
  have hturn := extractLoop_turn hpos hv
  cases v with
  | headerIncomplete => exact turns_wait hn hturn
  | badMagic => exact hturn
  | lengthTooLarge => exact hturn
  | bodyIncomplete => exact turns_wait hn hturn
  | outputTooSmall => exact hturn
  | crcMismatch => exact hturn
  | emit p => exact ⟨p, hturn⟩

/-- By how much the loop has raised the two error counters when it ends, if the turns behind a skip
raise them by `frame` and `crc`. -/
def TurnKind.raised (frame crc : Nat) : TurnKind → Nat × Nat
  | .frameError => (frame + 1, crc)
  | .crcError => (frame, crc + 1)
  | .emit => (0, 0)
  | .wait => (0, 0)

/-- A turn leaves a trace in the error counters that tells a skip from what ends the loop. -/
theorem exists_leavesErrors_of_turns {n : Instance} (hn : n.Inv) (hpos : n.offset < n.dataLen)
    (outputCapacity : Nat) :
    ∃ frame crc, ∀ kind, n.Turns outputCapacity kind →
      LeavesErrors (Instance.extractLoop outputCapacity n.usage n)
        (n.frameErrors + (kind.raised frame crc).1) (n.crcErrors + (kind.raised frame crc).2) := by
  obtain ⟨l, hl⟩ := hn.live_ok
  have hlen := live_length hl
  obtain ⟨b, rest, rfl⟩ : ∃ b rest, l = b :: rest :=
    List.exists_cons_of_length_pos (by simp only [Instance.usage] at hlen; omega)
  obtain ⟨frame, crc, hleft⟩ := exists_extractLoop_leavesErrors hn hl outputCapacity
  have hrest : n.usage - 1 = rest.length := by simp [← hlen]
  refine ⟨frame, crc, fun kind h => ?_⟩
  cases kind with
  | frameError =>
    rw [h, hrest]
    simpa only [TurnKind.raised, Nat.add_assoc, Nat.add_comm 1] using hleft n.crcErrors (n.frameErrors + 1)
  | crcError =>
    rw [h, hrest]
    simpa only [TurnKind.raised, Nat.add_assoc, Nat.add_comm 1] using hleft (n.crcErrors + 1) n.frameErrors
  | emit =>
    obtain ⟨p, hp⟩ := h
    exact ⟨_, _, hp, rfl, rfl⟩
  | wait =>
    obtain ⟨n', hcompact, hrun⟩ := h
    obtain ⟨m, hm, -⟩ := compact_ok hn
    cases hm.symm.trans hcompact
    exact ⟨_, _, hrun, rfl, rfl⟩

theorem not_emit_and_wait {n : Instance} {outputCapacity : Nat} (h : n.Turns outputCapacity .emit)
    (h' : n.Turns outputCapacity .wait) : False := by
  obtain ⟨p, hp⟩ := h
  obtain ⟨n', -, hrun⟩ := h'
  have hresult := hp.symm.trans hrun
  simp only [Instance.emitPayload, Except.ok.injEq, Prod.mk.injEq] at hresult
  exact Bool.noConfusion (congrArg Result.emit hresult.2)

/-- No turn does two of the four things. -/
theorem turns_unique {n : Instance} {outputCapacity : Nat} {kind kind' : TurnKind} (hn : n.Inv)
    (hpos : n.offset < n.dataLen) (h : n.Turns outputCapacity kind)
    (h' : n.Turns outputCapacity kind') : kind = kind' := by
  obtain ⟨frame, crc, hleft⟩ := exists_leavesErrors_of_turns hn hpos outputCapacity
  obtain ⟨hframe, hcrc⟩ := leavesErrors_unique (hleft kind h) (hleft kind' h')
  cases kind <;> cases kind' <;> simp only [TurnKind.raised] at hframe hcrc
  case frameError.frameError | crcError.crcError | emit.emit | wait.wait => rfl
  case emit.wait => exact (not_emit_and_wait h h').elim
  case wait.emit => exact (not_emit_and_wait h' h).elim
  all_goals omega

theorem turns_iff_kind {n : Instance} {outputCapacity : Nat} {v : Verdict} (hn : n.Inv)
    (hpos : n.offset < n.dataLen) (hv : n.examine outputCapacity = .ok v) (kind : TurnKind) :
    v.kind = kind ↔ n.Turns outputCapacity kind :=
  ⟨fun h => h ▸ turns_kind hn hpos hv, turns_unique hn hpos (turns_kind hn hpos hv)⟩

/-! ### The control points of R111, by what the turn does -/

theorem points_head (v : Verdict) : v.points.head? = some .searching := by
  cases v <;> rfl

/-- The points a turn passes follow the transitions of R111's table. -/
theorem points_isChain (v : Verdict) :
    v.points.IsChain (fun a b => ExtractPoint.leadsTo a b = true) := by
  cases v <;> simp [Verdict.points, ExtractPoint.leadsTo]

theorem points_last_resync_iff (v : Verdict) :
    v.points.getLast? = some .resync ↔ v.condition.isSome = true := by
  cases v <;> simp [Verdict.points, Verdict.condition]

theorem condition_frameSyncError_iff (v : Verdict) :
    v.condition = some .frameSyncError ↔ v.kind = .frameError := by
  cases v <;> simp [Verdict.condition, Verdict.kind]

theorem condition_crcMismatch_iff (v : Verdict) :
    v.condition = some .crcMismatch ↔ v.kind = .crcError := by
  cases v <;> simp [Verdict.condition, Verdict.kind]

theorem points_last_emit_iff (v : Verdict) : v.points.getLast? = some .emit ↔ v.kind = .emit := by
  cases v <;> simp [Verdict.points, Verdict.kind]

theorem points_last_waiting_iff (v : Verdict) :
    (v.points.getLast? = some .searching ∨ v.points.getLast? = some .awaitingBody) ↔
      v.kind = .wait := by
  cases v <;> simp [Verdict.points, Verdict.kind]

end Sys2Proof.Machine
end

section
/-! The obligations of 43_reconstructor_extract.md about one `EXTRACT`: its results, its account of the
bytes, its compaction, its skip and its emit, and the turns of its loop. -/

namespace Sys2Proof.Machine

/-- Settles O34: past the two checks it is the loop, which waits or emits. -/
theorem extractHasThreeResults : Obligations.ExtractHasThreeResults := by
  intro s output cap hs
  by_cases hrefused : s.inst.constructed = false ∨ output = .absent
  · exact ⟨_, congrArg (respond s) (extract_refused hrefused cap), rfl, rfl, rfl, fun _ _ => rfl,
      .inl ⟨hrefused, rfl, rfl⟩⟩
  · obtain ⟨v, hv⟩ := hs.observe_ok
    obtain ⟨n', r, hrun, -, hobs, hr, hframe⟩ := extract_spec output cap hs hv
    rw [observed_constructed hv] at hrefused
    obtain ⟨hcon, hout⟩ := not_or.mp hrefused
    have hpresent : output = .present := by cases output <;> trivial
    rw [stream_exec_extract_runs hrefused] at hobs hr
    refine ⟨_, congrArg (respond s) hrun, rfl, ?_⟩
    simp only [observed_constructed hv, observed_capacity hv, observed_packetsReceived hv,
      observed_constructed hobs, observed_capacity hobs, observed_packetsReceived hobs, hr]
    cases loopRun cap v.live with
    | waits frame crc rest hlen hloop =>
      rw [hloop]
      exact ⟨rfl, rfl, hframe, .inr (.inl ⟨Bool.eq_true_of_not_eq_false hcon, hpresent, rfl, rfl⟩)⟩
    | emits frame crc rest p hlen hcap hmax hloop =>
      rw [hloop]
      exact ⟨rfl, rfl, hframe, .inr (.inr ⟨Bool.eq_true_of_not_eq_false hcon, hpresent, rfl, p, hcap,
        hmax, rfl⟩)⟩

/-- Settles O48: the bytes the loop took are its skips and the frame it emitted. -/
theorem extractAccountsForEveryByte : Obligations.ExtractAccountsForEveryByte := by
  intro s t output cap r hs hexec hr
  obtain ⟨v, hv⟩ := hs.observe_ok
  obtain ⟨hobs, hres⟩ := next_refines rfl hs hv hexec
  obtain rfl := Option.some.inj (hr.symm.trans hres)
  change _ ∧ _ ∧ s.inst.usage = t.inst.usage + _ + _ + _ ∧ _
  rw [observed_frameErrors hv, observed_crcErrors hv, observed_packetsReceived hv, observed_usage hv,
    observed_frameErrors hobs, observed_crcErrors hobs, observed_packetsReceived hobs,
    observed_usage hobs]
  by_cases hrefused : v.constructed = false ∨ output = .absent
  · simp [StreamState.exec, hrefused]
  · rw [stream_exec_extract_runs hrefused]
    cases loopRun cap v.live with
    | waits frame crc rest hlen hloop => simp [hloop, StreamState.skipped, hlen]
    | emits frame crc rest p hlen _ _ hloop =>
      simp [hloop, StreamState.skipped, StreamState.withPacket, hlen]

/-- Settles O35: step 1 is the compaction, and after it does nothing more. -/
theorem extractCompactsOnEntryAt1024 : Obligations.ExtractCompactsOnEntryAt1024 := by
  intro s cap n hs hcon hoff hrun
  obtain ⟨hzero, hsame⟩ := extract_of_compact hs hcon hoff hrun cap
  exact ⟨hzero, congrArg (respond s) hsame⟩

/-- Settles O37: the turn that finds no magic bytes is a turn one byte further. -/
theorem magicMismatchSkipsOneByte : Obligations.MagicMismatchSkipsOneByte := by
  intro s cap b0 b1 b2 b3 tail hs hcon hl hbad
  obtain ⟨t, t', r, hrun, hrun', hr, hr', -, hobs⟩ :=
    extractsAs_of_badMagic (outputCapacity := cap) hs hcon hl (listVerdict_badMagic tail hbad)
  exact ⟨t, t', hrun, hrun', hr.trans hr'.symm, hobs⟩

/-- Settles O41: step 1 changes nothing observable, and below the threshold nothing at all. -/
theorem extractEmitsValidFrame : Obligations.ExtractEmitsValidFrame := by
  intro s cap p after hs hcon hl hmax hcap
  have hemits := extract_emits hs hcon hl (listVerdict_frameOf hmax hcap)
  obtain ⟨n, hrun, hn, hlive, -, hview, -⟩ := entryCompact_spec hs
  have hcounters := hview []
  rw [hrun] at hemits
  have hsize : (frameOf p).length = p.length + 6 := by simp [frameOf]
  refine ⟨_, congrArg (respond s) hemits, rfl, rfl, ?_,
    congrArg (·.packetsReceived + 1) hcounters, congrArg StreamState.crcErrors hcounters,
    congrArg StreamState.frameErrors hcounters, fun hbelow => ?_⟩
  · have hadvance := live_advance (k := (frameOf p).length) (n' := { n.countPacket with
      offset := n.offset + totalSize p.length }) (hlive _ hl) (by simp) rfl rfl rfl
      (by rw [hsize, totalSize_eq])
    rwa [List.drop_left] at hadvance
  · obtain rfl := Except.ok.inj ((entryCompact_of_below hbelow).symm.trans hrun)
    rfl

/-- Settles O42: each ending of the points is one kind of turn, and no turn is of two kinds. -/
theorem turnsFollowTheStateTable : Obligations.TurnsFollowTheStateTable := by
  refine ⟨fun n cap hn hpos => ?_, fun n cap hn hend => ?_, fun s cap hcon => ?_⟩
  · obtain ⟨l, hl⟩ := hn.live_ok
    obtain ⟨hlen, hholds⟩ := live_ok_iff.mp hl
    have hexamine := examine_spec cap hlen hholds
    have hkind := turns_iff_kind hn hpos hexamine
    exact ⟨listVerdict cap l, hexamine, points_head _, points_isChain _, points_last_resync_iff _,
      (condition_frameSyncError_iff _).trans (hkind .frameError),
      (condition_crcMismatch_iff _).trans (hkind .crcError),
      (points_last_emit_iff _).trans (hkind .emit), (points_last_waiting_iff _).trans (hkind .wait)⟩
  · have hzero : n.usage = 0 := Nat.sub_eq_zero_of_le hend.ge
    exact turns_wait hn (by rw [hzero]; rfl)
  · exact congrArg (respond s) (extract_eq_entryCompact_loop hcon cap)

end Sys2Proof.Machine
end

section
/-! SUPPORT. The CRC engine once more (40_crc16.md R67, R72, 43_reconstructor_extract.md R115): what a byte
that meets its own high byte does, and that no step of the engine takes two registers to one. -/

namespace Sys2Proof.Machine

/-! ### The table form -/

/-- The low byte of the register moves up whole (R67). -/
theorem shiftLeft_eight (c : Word) : c <<< 8 = (lo8 c).setWidth 16 <<< 8 := by
  apply BitVec.eq_of_toNat_eq
  simp only [BitVec.toNat_shiftLeft, BitVec.toNat_setWidth, lo8_toNat, Nat.shiftLeft_eq]
  omega

/-- The shifts act on the two halves of the register apart. -/
theorem crcByte_eq_table (c : Word) (b : Byte) : crcByte c b = (c <<< 8) ^^^ crcTable (hi8 c ^^^ b) := by
  rw [crcByte, xor_highByte, crcShifts_xor, crcShifts_low, ← shiftLeft_eight, crcTable, crcByte,
    BitVec.zero_xor]

/-! ### The residue -/

theorem crcTable_zero : crcTable 0#8 = 0#16 := by decide

/-- The high byte of the register cancels itself (R72). -/
theorem crcByte_hi8 (c : Word) : crcByte c (hi8 c) = c <<< 8 := by
  rw [crcByte_eq_table, BitVec.xor_self, crcTable_zero, BitVec.xor_zero]

theorem hi8_shiftLeft_eight (c : Word) : hi8 (c <<< 8) = lo8 c := by
  apply BitVec.eq_of_toNat_eq
  simp only [hi8_toNat, lo8_toNat, BitVec.toNat_shiftLeft, Nat.shiftLeft_eq]
  omega

theorem shiftLeft_eight_twice (c : Word) : c <<< 8 <<< 8 = 0#16 := by
  apply BitVec.eq_of_toNat_eq
  simp only [BitVec.toNat_shiftLeft, Nat.shiftLeft_eq, BitVec.toNat_ofNat]
  omega

/-- The two bytes of the register, high byte first, take it to 0 (R72). -/
theorem crcByte_own_bytes (c : Word) : crcByte (crcByte c (hi8 c)) (lo8 c) = 0#16 := by
  rw [crcByte_hi8, ← hi8_shiftLeft_eight, crcByte_hi8, shiftLeft_eight_twice]

/-! ### Detection of one changed byte -/

/-- The polynomial has its last bit set, so a shift that took the top bit out shows it there. -/
theorem eq_zero_of_crcShift_eq_zero {c : Word} (h : crcShift c = 0#16) : c = 0#16 := by
  unfold crcShift at h
  split at h
  case isTrue =>
    have hbit := congrArg (·.getLsbD 0) h
    simp [Config.crcPoly] at hbit
  case isFalse hmsb =>
    rw [Bool.not_eq_true, BitVec.msb_eq_false_iff_two_mul_lt] at hmsb
    have hval := congrArg BitVec.toNat h
    simp only [BitVec.toNat_shiftLeft, Nat.shiftLeft_eq, BitVec.toNat_ofNat] at hval
    apply BitVec.eq_of_toNat_eq
    simp only [BitVec.toNat_ofNat]
    omega

theorem crcShift_injective : Function.Injective crcShift := by
  intro x y h
  have hzero : crcShift (x ^^^ y) = 0#16 := by rw [crcShift_xor, h, BitVec.xor_self]
  exact BitVec.xor_eq_zero_iff.mp (eq_zero_of_crcShift_eq_zero hzero)

theorem crcShifts_injective (k : Nat) : Function.Injective (Nat.repeat crcShift k) := by
  induction k with
  | zero => exact Function.injective_id
  | succ k ih => exact crcShift_injective.comp ih

theorem highByte_injective : Function.Injective highByte := by
  intro a b h
  have hval := congrArg BitVec.toNat h
  simp only [highByte_eq_ofNat, BitVec.toNat_ofNat] at hval
  exact BitVec.eq_of_toNat_eq (by omega)

theorem crcByte_injective_register (b : Byte) : Function.Injective (crcByte · b) :=
  fun _ _ h => (BitVec.xor_left_inj _).mp (crcShifts_injective 8 h)

theorem crcByte_injective_byte (c : Word) : Function.Injective (crcByte c) :=
  fun _ _ h => highByte_injective ((BitVec.xor_right_inj _).mp (crcShifts_injective 8 h))

theorem foldl_crcByte_injective (bytes : List Byte) :
    Function.Injective (fun c => bytes.foldl crcByte c) := by
  induction bytes with
  | nil => exact Function.injective_id
  | cons b rest ih => exact ih.comp (crcByte_injective_register b)

/-- The bytes before the change leave one register, and those behind it keep the two apart (R115). -/
theorem crc16_ne_of_changed_byte {b b' : Byte} (hne : b ≠ b') (before after : List Byte) :
    crc16 (before ++ b :: after) ≠ crc16 (before ++ b' :: after) := by
  simp only [crc16_append, List.foldl_cons]
  exact fun h => hne (crcByte_injective_byte _ (foldl_crcByte_injective after h))

end Sys2Proof.Machine
end

section
/-! SUPPORT. The frame encoder (41_frame_encoder.md): the bytes of its two 16-bit fields, the way its checks
go, and that a valid frame is determined by its payload (30_encoding.md R52). -/

namespace Sys2Proof.Machine

/-! ### The bytes of a frame -/

theorem hi8_eq_ofNat (v : Word) : hi8 v = BitVec.ofNat 8 (v.toNat / 256) := by
  apply BitVec.eq_of_toNat_eq
  rw [hi8_toNat, ofNat8_toNat (by omega)]

theorem lo8_eq_ofNat (v : Word) : lo8 v = BitVec.ofNat 8 (v.toNat % 256) := by
  apply BitVec.eq_of_toNat_eq
  rw [lo8_toNat, ofNat8_toNat (by omega)]

theorem length_field_toNat {p : List Byte} (h : p.length ≤ 65535) :
    (BitVec.ofNat 16 p.length).toNat = p.length := by
  rw [BitVec.toNat_ofNat]
  omega

theorem frameOf_length (p : List Byte) : (frameOf p).length = p.length + 6 := frameBytes_length ..

theorem frameOf_eq (p : List Byte) :
    frameOf p = Config.magic1 :: Config.magic2 :: hi8 (BitVec.ofNat 16 p.length) ::
      lo8 (BitVec.ofNat 16 p.length) :: (p ++ [hi8 (crc16 p), lo8 (crc16 p)]) :=
  frameBytes_eq ..

/-- A frame byte by byte, its fields as numbers (R78). -/
theorem frameOf_bytes {p : List Byte} (h : p.length ≤ 65535) :
    frameOf p =
      [0xAA#8, 0x55#8, BitVec.ofNat 8 (p.length / 256), BitVec.ofNat 8 (p.length % 256)] ++ p ++
        [BitVec.ofNat 8 ((crc16 p).toNat / 256), BitVec.ofNat 8 ((crc16 p).toNat % 256)] := by
  rw [frameOf_eq, hi8_eq_ofNat, lo8_eq_ofNat, hi8_eq_ofNat, lo8_eq_ofNat, length_field_toNat h]
  rfl

/-! ### `FRAME` -/

/-- `FRAME` succeeds when none of its checks fails (R79), and hands back the frame. -/
theorem exec_frame_ok {payload : Option (List Byte)} {len cap : Nat} (s : State)
    (hpayload : ¬(payload = none ∧ 0 < len)) (hlen : len ≤ 65535) (hcap : len + 6 ≤ cap) :
    exec (.frame payload len .present cap) s =
      .next { s with result := some (.written (frameOf (inputBytes payload len))) } := by
  have hchecks : frameResponse s.inst payload len .present cap =
      .ok (s.inst, .written (frameOf (inputBytes payload len))) := by
    rw [frameResponse, totalSize_eq, if_neg (by simpa using hpayload),
      if_neg (show ¬len > Config.maxPayload from Nat.not_lt.mpr hlen), if_neg (Nat.not_lt.mpr hcap)]
  exact congrArg (respond s) hchecks

theorem exec_frame_some {p : List Byte} {cap : Nat} (s : State) (hlen : p.length ≤ 65535)
    (hcap : p.length + 6 ≤ cap) :
    exec (.frame (some p) p.length .present cap) s =
      .next { s with result := some (.written (frameOf p)) } := by
  rw [exec_frame_ok s (by simp) hlen hcap, inputBytes_some rfl]

/-! ### Valid frames -/

theorem validFrame_frameOf {p : List Byte} (h : p.length ≤ 65535) : ValidFrame (frameOf p) p := by
  have hfield : (be16 (hi8 (BitVec.ofNat 16 p.length)) (lo8 (BitVec.ofNat 16 p.length))).toNat =
      p.length := by rw [be16_hi8_lo8, length_field_toNat h]
  refine ⟨by simp [frameOf_length], by simp [frameOf_eq], by simp [frameOf_eq], _, _,
    hi8 (crc16 p), lo8 (crc16 p), by rw [frameOf_eq]; rfl, by rw [frameOf_eq]; rfl, ?_⟩
  rw [hfield, frameOf_length, frameOf_eq]
  refine ⟨Nat.add_comm _ _, by simp, ?_, ?_, be16_hi8_lo8 _⟩
  · simp [Nat.add_comm 4]
  · simp [Nat.add_comm 5]

/-- A list of at least four bytes is its first four and the rest. -/
theorem eq_four_cons_of_getElem? {f : List Byte} {a b c d : Byte} (ha : f[0]? = some a)
    (hb : f[1]? = some b) (hc : f[2]? = some c) (hd : f[3]? = some d) :
    f = a :: b :: c :: d :: f.drop 4 := by
  match f with
  | _ :: _ :: _ :: _ :: _ => simp_all

theorem eq_append_two_of_getElem? {f : List Byte} {k : Nat} {a b : Byte} (hlen : f.length = k + 2)
    (ha : f[k]? = some a) (hb : f[k + 1]? = some b) : f = f.take k ++ [a, b] := by
  obtain ⟨hka, rfl⟩ := List.getElem?_eq_some_iff.mp ha
  obtain ⟨hkb, rfl⟩ := List.getElem?_eq_some_iff.mp hb
  conv_lhs => rw [← List.take_append_drop k f]
  rw [List.drop_eq_getElem_cons hka, List.drop_eq_getElem_cons hkb, List.drop_of_length_le (by omega)]

/-- Every byte of a valid frame is fixed by its payload (R52). -/
theorem validFrame_unique {f p : List Byte} (h : ValidFrame f p) : f = frameOf p := by
  obtain ⟨-, h0, h1, hb, lb, ch, cl, h2, h3, hlen, hp, h4, h5, hcrc⟩ := h
  have hhead := eq_four_cons_of_getElem? h0 h1 h2 h3
  have htail : f.drop 4 = p ++ [ch, cl] := by
    rw [hp]
    refine eq_append_two_of_getElem? ?_ ?_ ?_
    · rw [List.length_drop]; omega
    · rw [List.getElem?_drop, h4]
    · rw [List.getElem?_drop, ← h5]; congr 1; omega
  have hfield : BitVec.ofNat 16 p.length = be16 hb lb := by
    rw [hp, List.length_take, List.length_drop, Nat.min_eq_left (by omega), BitVec.ofNat_toNat,
      BitVec.setWidth_eq]
  rw [hhead, htail, frameOf_eq, hfield, hi8_be16, lo8_be16, ← hcrc, hi8_be16, lo8_be16]

end Sys2Proof.Machine
end

section
/-! The obligations of 40_crc16.md about the table form, the residue and detection, and of
41_frame_encoder.md. -/

namespace Sys2Proof.Machine

/-- Settles O13: the shifts are linear, and the low byte meets no polynomial. -/
theorem crcTableFormAgrees : Obligations.CrcTableFormAgrees :=
  ⟨crcByte_eq_table, fun _ => rfl, crcTable_zero, by decide, by decide⟩

/-- Settles O16: the fold goes on from where it stands, and the register's own bytes clear it. -/
theorem crcResidueIsZero : Obligations.CrcResidueIsZero :=
  ⟨crc16_append, fun p => (crc16_append p _).trans (crcByte_own_bytes (crc16 p))⟩

/-- Settles O17: `CRC_BYTE` is injective in the byte and in the register. -/
theorem crcDetectsOneChangedByte : Obligations.CrcDetectsOneChangedByte :=
  fun before after _ _ hne => crc16_ne_of_changed_byte hne before after

/-- Settles O18: no check fails, and the frame is `frameOf_bytes`. -/
theorem frameWritesTheFrame : Obligations.FrameWritesTheFrame := by
  refine ⟨fun p cap s hlen hcap => ?_, fun cap s hcap => ?_⟩
  · rw [exec_frame_some s hlen hcap, Result.written, frameOf_length, frameOf_bytes hlen]
  · rw [exec_frame_ok s (by simp) (Nat.zero_le _) hcap, inputBytes, crcKnownValues.2.1]
    rfl

/-- Settles O19: the checks are tried in the order the status names them. -/
theorem frameChecksInOrder : Obligations.FrameChecksInOrder := by
  intro payload len output cap s hfails
  have hresponse : frameResponse s.inst payload len output cap = .ok (s.inst, .failed
      (if (payload = none ∧ len > 0) ∨ output = .absent then .invalidArgument
       else if len > 65535 then .payloadTooLarge
       else .outputTooSmall)) := by
    unfold frameResponse
    split
    · rfl
    · split
      · rw [if_pos ‹_›]; rfl
      · rename_i hargs hmax
        have hsmall : cap < totalSize len :=
          ((or_assoc.mpr hfails).resolve_left hargs).resolve_left hmax
        rw [if_pos hsmall, if_neg (show ¬len > 65535 from hmax)]
        rfl
  exact congrArg (respond s) hresponse

/-- Settles O20: the encoder's frame is valid, and a valid frame is fixed by its payload. -/
theorem frameIsTheOneValidFrame : Obligations.FrameIsTheOneValidFrame :=
  fun _ hlen => ⟨⟨validFrame_frameOf hlen, fun _ => validFrame_unique⟩,
    fun s => ⟨_, exec_frame_some s hlen (Nat.le_refl _), rfl, rfl⟩⟩

end Sys2Proof.Machine
end

section
/-! SUPPORT. The commands that do no more than a check (42_reconstructor_buffer.md R83 to R96): what they
answer, and that none of them but `NEW` does anything before a `NEW`. -/

namespace Sys2Proof.Machine

theorem powerOn_inv : Instance.powerOn.Inv where
  bufWf := .nil
  cellsInRange _ hc := nomatch hc
  offsetLe := Nat.le_refl 0
  dataLenLe := Nat.le_refl 0
  liveWritten i _ hi := absurd hi (Nat.not_lt_zero i)
  capacityLegal h := nomatch h

/-- Before a `NEW` every command of the reconstructor fails at its first check (R96). -/
theorem exec_before_new {i : Instr} {s : State} (hi : needsConstructed i = true)
    (h : s.inst.constructed = false) :
    exec i s = .next { s with result := some (.failed .invalidArgument) } := by
  have hreceive : ∀ data len, s.inst.receive data len = .ok (s.inst, .failed .invalidArgument) :=
    fun _ _ => if_pos h
  have hwhen : ∀ x, whenConstructed s.inst x = .ok (s.inst, .failed .invalidArgument) :=
    fun _ => if_pos h
  cases i with
  | crc16 data => cases hi
  | frame payload payloadLen output outputCapacity => cases hi
  | new buffer capacity => cases hi
  | addData data len => exact congrArg (respond s) (hreceive data len)
  | extract output outputCapacity => exact congrArg (respond s) (extract_refused (.inl h) _)
  | reset => exact congrArg (respond s) (hwhen _)
  | usage => exact congrArg (respond s) (hwhen _)
  | stats => exact congrArg (respond s) (hwhen _)
  | wireFrame length payload crc => exact congrArg (respond s) (hreceive _ _)

/-- The answer of a command that always succeeds once the instance is constructed. -/
theorem respond_whenConstructed (s : State) (n : Instance) (r : Result) :
    respond s (whenConstructed s.inst (.ok (n, r))) =
      if s.inst.constructed = true then .next { s with inst := n, result := some r }
      else .next { s with result := some (.failed .invalidArgument) } := by
  unfold whenConstructed
  cases s.inst.constructed <;> rfl

theorem exec_new_refused {buffer : Presence} {capacity : Nat} (s : State)
    (h : buffer = .absent ∨ capacity < 256) :
    exec (.new buffer capacity) s = .next { s with result := some (.failed .invalidArgument) } :=
  congrArg (respond s) (if_pos h)

/-- `ADD_DATA` without bytes fails at its first check or its second (R88). -/
theorem receive_refused (n : Instance) {data : Option (List Byte)} {len : Nat}
    (h : data = none ∨ len = 0) : n.receive data len = .ok (n, .failed .invalidArgument) := by
  unfold Instance.receive
  rw [if_pos h]
  split <;> rfl

end Sys2Proof.Machine
end

section
/-! The obligations about power-on (70_reset_and_hazards.md R143) and about the commands that create, empty
and inspect a reconstructor (42_reconstructor_buffer.md). -/

namespace Sys2Proof.Machine

/-- Settles O1: `exec_before_new` at power-on. -/
theorem powerOnIsUnconstructed : Obligations.PowerOnIsUnconstructed :=
  ⟨rfl, rfl, rfl, fun _ hi => exec_before_new hi rfl⟩

/-- Settles O2: nothing is held and no cell is written. -/
theorem powerOnMeetsInvariant : Obligations.PowerOnMeetsInvariant := powerOn_inv

/-- Settles O21: what a successful `NEW` leaves is `Instance.fresh`. -/
theorem newMakesFreshInstance : Obligations.NewMakesFreshInstance :=
  fun s _ hcap => exec_new_present hcap s

/-- Settles O22: the check fails, and nothing was done before it. -/
theorem newRefusesSmallBuffers : Obligations.NewRefusesSmallBuffers :=
  fun s _ _ => exec_new_refused s

/-- Settles O23: `respond_whenConstructed` for `RESET`. -/
theorem resetEmptiesAndKeepsCounters : Obligations.ResetEmptiesAndKeepsCounters :=
  fun s => respond_whenConstructed s { s.inst with dataLen := 0, offset := 0 } _

/-- Settles O24: `respond_whenConstructed` for `USAGE`, and the number of the live bytes. -/
theorem usageCountsLiveBytes : Obligations.UsageCountsLiveBytes := by
  refine ⟨fun s => respond_whenConstructed s s.inst _, fun n hn => ?_⟩
  obtain ⟨l, hl⟩ := hn.live_ok
  have hlen : l.length = n.dataLen - n.offset := live_length hl
  exact ⟨l, hl, hlen, hlen ▸ Nat.add_sub_cancel' hn.offsetLe, live_length hl ▸ usage_le_capacity hn⟩

/-- Settles O25: `respond_whenConstructed` for `STATS`. -/
theorem statsReturnsCounters : Obligations.StatsReturnsCounters :=
  fun s hcon => (respond_whenConstructed s s.inst _).trans (if_pos hcon)

/-- Settles O26: `exec_before_new`. -/
theorem beforeNewInvalidArgument : Obligations.BeforeNewInvalidArgument :=
  fun _ _ => exec_before_new

/-- Settles O27: the check of the operands fails on any instance. -/
theorem addDataRefusesEmpty : Obligations.AddDataRefusesEmpty :=
  fun s _ _ h => congrArg (respond s) (receive_refused s.inst h)

/-- Settles O33: the check of the output comes before step 1. -/
theorem extractRefusesAbsentOutput : Obligations.ExtractRefusesAbsentOutput :=
  fun s cap => congrArg (respond s) (extract_refused (.inr rfl) cap)

end Sys2Proof.Machine
end

section
/-! SUPPORT. `ADD_DATA` when the chunk does not fit (42_reconstructor_buffer.md R89, R91), and a frame on
the wire as the `ADD_DATA` it is. -/

namespace Sys2Proof.Machine

/-- R89: the compaction stays done, and nothing of the chunk is stored. -/
theorem receive_bufferFull {n : Instance} {d l : List Byte} (hn : n.Inv) (hcon : n.constructed = true)
    (hd : d ≠ []) (hl : n.live = .ok l) (hover : n.capacity < l.length + d.length) :
    ∃ m, n.receive (some d) d.length = .ok (n.compacted m, .failed .bufferFull) ∧
      (n.compacted m).live = .ok l ∧ ∀ i, l.length ≤ i → m.read? i = n.buf.read? i := by
  obtain ⟨m, hcompact, -, hlive, habove⟩ := compact_ok hn
  rw [live_length hl] at hover ⊢
  have hbehind : n.capacity < n.dataLen + d.length := by
    simp only [Instance.usage] at hover
    omega
  exact ⟨m, (receive_of_overflow hcon hd hbehind hcompact).trans (if_pos hover), hlive l hl, habove⟩

theorem exec_wireFrame (length : Word) (payload : List Byte) (crc : Word) (s : State) :
    exec (.wireFrame length payload crc) s =
      exec (.addData (some (frameBytes length payload crc)) (frameBytes length payload crc).length) s :=
  rfl

end Sys2Proof.Machine
end

section
/-! The obligations of 42_reconstructor_buffer.md about a chunk that does not fit, about a frame on the wire
and about `COMPACT`. -/

namespace Sys2Proof.Machine

/-- Settles O29: `receive_bufferFull`. -/
theorem addDataBufferFullKeepsLive : Obligations.AddDataBufferFullKeepsLive := by
  intro s d l hs hcon hd hl hover
  obtain ⟨m, hrun, hlive, habove⟩ := receive_bufferFull hs hcon hd hl hover
  refine ⟨_, congrArg (respond s) hrun, rfl, rfl, hlive, ?_, habove⟩
  rw [live_length hl]
  rfl

/-- Settles O30: `AddDataAppends` for the bytes of the frame. -/
theorem wireFrameIsAppended : Obligations.WireFrameIsAppended := by
  intro s length payload crc l hs hcon _ hl hroom
  obtain ⟨t, hrun, hres, hport, hlive, hinst, hbehind, hcompacted⟩ :=
    addDataAppends s (frameBytes length payload crc) l hs hcon (by simp [frameBytes_eq]) hl
      (by rwa [frameBytes_length])
  rw [frameBytes_length] at hinst hbehind hcompacted
  refine ⟨t, (exec_wireFrame ..).trans hrun, hres, hport, hlive, hinst, fun hfit i hi => ?_,
    fun hover i hi => ?_⟩
  · rw [hbehind hfit, if_neg (by omega)]
  · rw [hcompacted hover, if_neg (by omega)]

/-- Settles O32: `compact_spec` for the cells, `compact_ok` for the live bytes; the cursor is then 0. -/
theorem compactKeepsLive : Obligations.CompactKeepsLive := by
  intro n hn
  obtain ⟨m, hrun, hread, -⟩ := compact_spec hn
  obtain ⟨m', hrun', -, hlive, -⟩ := compact_ok hn
  obtain ⟨l, hl⟩ := hn.live_ok
  cases hrun'.symm.trans hrun
  exact ⟨_, hrun, rfl, (hlive l hl).trans hl.symm, compact_of_offset_zero rfl, hread⟩

end Sys2Proof.Machine
end

section
/-! SUPPORT. Which status a command can answer and when (60_exceptions.md R123 to R129), in any state,
whether or not it meets the invariant. -/

namespace Sys2Proof.Machine

/-! ### `ADD_DATA` -/

theorem writeByte_ok {n n' : Instance} {i : Nat} {b : Byte} (h : n.writeByte i b = .ok n') :
    n' = { n with buf := n.buf.write i b } := by
  unfold Instance.writeByte at h
  split at h
  · cases h; rfl
  · cases h

/-- The move writes cells and nothing else. -/
theorem moveDown_capacity {n n' : Instance} {src count k : Nat}
    (h : n.moveDown src count k = .ok n') : n'.capacity = n.capacity := by
  induction count generalizing n k with
  | zero => cases h; rfl
  | succ count ih =>
    rw [Instance.moveDown] at h
    cases hread : n.readByte (src + k) with
    | error f => simp [hread] at h
    | ok b =>
      cases hwrite : n.writeByte k b with
      | error f => simp [hread, hwrite] at h
      | ok n1 =>
        rw [hread, except_bind_ok, hwrite, except_bind_ok] at h
        rw [ih h, writeByte_ok hwrite]

/-- Whenever `COMPACT` completes, `data_len` is the usage and the capacity stays. -/
theorem compact_dataLen_capacity {n n' : Instance} (h : n.compact = .ok n') :
    n'.dataLen = n.usage ∧ n'.capacity = n.capacity := by
  unfold Instance.compact at h
  split at h
  case isTrue =>
    cases hmove : n.moveDown n.offset n.usage 0 with
    | error f => simp [hmove] at h
    | ok n1 =>
      have hcap := moveDown_capacity hmove
      rw [hmove] at h
      cases h
      exact ⟨rfl, hcap⟩
  case isFalse hzero =>
    cases h
    simp [Instance.usage, Nat.eq_zero_of_not_pos hzero]

/-- The statuses of `ADD_DATA`, each with its condition. -/
inductive ReceiveStatus (n : Instance) (data : Option (List Byte)) (len : Nat) : Status → Prop
  | ok : ReceiveStatus n data len .ok
  | beforeNew (h : n.constructed = false) : ReceiveStatus n data len .invalidArgument
  | noBytes (h : data = none ∨ len = 0) : ReceiveStatus n data len .invalidArgument
  | full (h : n.capacity < n.usage + len) : ReceiveStatus n data len .bufferFull

theorem receive_status {n n' : Instance} {data : Option (List Byte)} {len : Nat} {r : Result}
    (h : n.receive data len = .ok (n', r)) : ReceiveStatus n data len r.status := by
  unfold Instance.receive at h
  split at h
  case isTrue hcon => cases h; exact .beforeNew hcon
  split at h
  case isTrue hargs => cases h; exact .noBytes hargs
  split at h
  case isFalse => rw [appendBytes_status h]; exact .ok
  cases hrun : n.compact with
  | error f => simp [hrun] at h
  | ok n1 =>
    obtain ⟨hlen, hcap⟩ := compact_dataLen_capacity hrun
    rw [hrun, except_bind_ok, hlen, hcap] at h
    split at h
    case isTrue hover => cases h; exact .full hover
    case isFalse => rw [appendBytes_status h]; exact .ok

/-! ### `EXTRACT` -/

theorem needMoreData_ok_status {n n' : Instance} {r : Result} (h : n.needMoreData = .ok (n', r)) :
    r.status = .ok := by
  unfold Instance.needMoreData at h
  cases hrun : n.compact with
  | error f => simp [hrun] at h
  | ok n1 => rw [hrun] at h; cases h; rfl

/-- The conditions the loop counts are no statuses (R128, R129). -/
theorem extractLoop_status {outputCapacity turns : Nat} {n n' : Instance} {r : Result}
    (h : Instance.extractLoop outputCapacity turns n = .ok (n', r)) : r.status = .ok := by
  induction turns generalizing n with
  | zero => exact needMoreData_ok_status h
  | succ turns ih =>
    rw [Instance.extractLoop] at h
    split at h
    case isFalse => exact needMoreData_ok_status h
    cases hv : n.examine outputCapacity with
    | error f => simp [hv] at h
    | ok v =>
      rw [hv, except_bind_ok] at h
      cases v with
      | headerIncomplete => exact needMoreData_ok_status h
      | badMagic => exact ih h
      | lengthTooLarge => exact ih h
      | bodyIncomplete => exact needMoreData_ok_status h
      | outputTooSmall => exact ih h
      | crcMismatch => exact ih h
      | emit p => cases h; rfl

theorem extract_status {n n' : Instance} {output : Presence} {outputCapacity : Nat} {r : Result}
    (h : n.extract output outputCapacity = .ok (n', r))
    (hruns : ¬(n.constructed = false ∨ output = .absent)) : r.status = .ok := by
  rw [Instance.extract, if_neg hruns] at h
  cases hentry : n.entryCompact with
  | error f => simp [hentry] at h
  | ok n1 => rw [hentry] at h; exact extractLoop_status h

/-! ### Every instruction -/

/-- The statuses of an instruction, each with its condition. -/
inductive StatusOf (n : Instance) : Instr → Status → Prop
  | ok (i : Instr) : StatusOf n i .ok
  | beforeNew (i : Instr) (hi : needsConstructed i = true) (h : n.constructed = false) :
      StatusOf n i .invalidArgument
  | frameArguments (payload : Option (List Byte)) (len : Nat) (output : Presence) (cap : Nat)
      (h : (payload = none ∧ 0 < len) ∨ output = .absent) :
      StatusOf n (.frame payload len output cap) .invalidArgument
  | framePayload (payload : Option (List Byte)) (len : Nat) (output : Presence) (cap : Nat)
      (h : 65535 < len) : StatusOf n (.frame payload len output cap) .payloadTooLarge
  | frameOutput (payload : Option (List Byte)) (len : Nat) (output : Presence) (cap : Nat)
      (h : cap < 4 + len + 2) : StatusOf n (.frame payload len output cap) .outputTooSmall
  | newArguments (buffer : Presence) (capacity : Nat) (h : buffer = .absent ∨ capacity < 256) :
      StatusOf n (.new buffer capacity) .invalidArgument
  | addDataArguments (data : Option (List Byte)) (len : Nat) (h : data = none ∨ len = 0) :
      StatusOf n (.addData data len) .invalidArgument
  | addDataFull (data : Option (List Byte)) (len : Nat) (h : n.capacity < n.usage + len) :
      StatusOf n (.addData data len) .bufferFull
  | wireFull (length : Word) (payload : List Byte) (crc : Word)
      (h : n.capacity < n.usage + (payload.length + 6)) :
      StatusOf n (.wireFrame length payload crc) .bufferFull
  | extractOutput (cap : Nat) : StatusOf n (.extract .absent cap) .invalidArgument

/-- Every response the block can make to the instruction has one of the instruction's statuses. -/
def RespondsWithin (n : Instance) (i : Instr) (x : Except Fault Response) : Prop :=
  ∀ n' r, x = .ok (n', r) → StatusOf n i r.status

theorem respondsWithin_ok {n n' : Instance} {i : Instr} {r : Result} (h : StatusOf n i r.status) :
    RespondsWithin n i (.ok (n', r)) := by
  intro _ _ hx
  cases hx
  exact h

theorem respondsWithin_whenConstructed {n : Instance} {i : Instr} {x : Except Fault Response}
    (hi : needsConstructed i = true) (hx : RespondsWithin n i x) :
    RespondsWithin n i (whenConstructed n x) := by
  unfold whenConstructed
  split
  case isTrue hcon => exact respondsWithin_ok (.beforeNew i hi hcon)
  case isFalse => exact hx

theorem respondsWithin_frameResponse (n : Instance) (payload : Option (List Byte)) (len : Nat)
    (output : Presence) (cap : Nat) :
    RespondsWithin n (.frame payload len output cap) (frameResponse n payload len output cap) := by
  unfold frameResponse
  split_ifs with hargs hmax hsmall
  · exact respondsWithin_ok (.frameArguments _ _ _ _ hargs)
  · exact respondsWithin_ok (.framePayload _ _ _ _ hmax)
  · exact respondsWithin_ok (.frameOutput _ _ _ _ hsmall)
  · exact respondsWithin_ok (.ok _)

theorem respondsWithin_new (n : Instance) (buffer : Presence) (capacity : Nat) :
    RespondsWithin n (.new buffer capacity)
      (if buffer = .absent ∨ capacity < Config.minCapacity then raise n .invalidArgument
        else ret (.fresh capacity) (.num 0)) := by
  split
  case isTrue hargs => exact respondsWithin_ok (.newArguments _ _ hargs)
  case isFalse => exact respondsWithin_ok (.ok _)

theorem respondsWithin_addData (n : Instance) (data : Option (List Byte)) (len : Nat) :
    RespondsWithin n (.addData data len) (n.receive data len) := by
  intro n' r hx
  have hstatus := receive_status hx
  generalize r.status = st at hstatus
  cases hstatus with
  | ok => exact .ok _
  | beforeNew hcon => exact .beforeNew _ rfl hcon
  | noBytes hargs => exact .addDataArguments _ _ hargs
  | full hover => exact .addDataFull _ _ hover

theorem respondsWithin_wireFrame (n : Instance) (length : Word) (payload : List Byte) (crc : Word) :
    RespondsWithin n (.wireFrame length payload crc)
      (n.receive (some (frameBytes length payload crc)) (frameBytes length payload crc).length) := by
  intro n' r hx
  have hstatus := receive_status hx
  generalize r.status = st at hstatus
  cases hstatus with
  | ok => exact .ok _
  | beforeNew hcon => exact .beforeNew _ rfl hcon
  | noBytes hargs => simp at hargs
  | full hover => exact .wireFull _ _ _ (by rwa [frameBytes_length] at hover)

theorem respondsWithin_extract (n : Instance) (output : Presence) (cap : Nat) :
    RespondsWithin n (.extract output cap) (n.extract output cap) := by
  intro n' r hx
  by_cases hrefused : n.constructed = false ∨ output = .absent
  · cases (extract_refused hrefused cap).symm.trans hx
    rcases hrefused with hcon | rfl
    · exact .beforeNew _ rfl hcon
    · exact .extractOutput cap
  · rw [extract_status hx hrefused]
    exact .ok _

theorem respond_status {s t : State} {i : Instr} {x : Except Fault Response} {r : Result}
    (hx : RespondsWithin s.inst i x) (h : respond s x = .next t) (hr : t.result = some r) :
    StatusOf s.inst i r.status := by
  cases x with
  | error f => cases h
  | ok a =>
    cases h
    cases hr
    exact hx _ _ rfl

theorem exec_status {i : Instr} {s t : State} {r : Result} (h : exec i s = .next t)
    (hr : t.result = some r) : StatusOf s.inst i r.status := by
  cases i with
  | crc16 data => exact respond_status (respondsWithin_ok (.ok _)) h hr
  | frame payload payloadLen output outputCapacity =>
    exact respond_status (respondsWithin_frameResponse _ _ _ _ _) h hr
  | new buffer capacity => exact respond_status (respondsWithin_new _ _ _) h hr
  | addData data len => exact respond_status (respondsWithin_addData _ _ _) h hr
  | extract output outputCapacity => exact respond_status (respondsWithin_extract _ _ _) h hr
  | reset =>
    exact respond_status (respondsWithin_whenConstructed rfl (respondsWithin_ok (.ok _))) h hr
  | usage =>
    exact respond_status (respondsWithin_whenConstructed rfl (respondsWithin_ok (.ok _))) h hr
  | stats =>
    exact respond_status (respondsWithin_whenConstructed rfl (respondsWithin_ok (.ok _))) h hr
  | wireFrame length payload crc => exact respond_status (respondsWithin_wireFrame _ _ _ _) h hr

end Sys2Proof.Machine
end

section
/-! The obligations of 60_exceptions.md about the statuses and of 93_implementation_defined.md about the
widths. -/

namespace Sys2Proof.Machine

/-- Settles O52: each status of an instruction comes with its condition (`exec_status`). -/
theorem statusesComeFromTheirCommands : Obligations.StatusesComeFromTheirCommands := by
  intro i s t r hexec hr
  have hstatus := exec_status hexec hr
  generalize r.status = st at hstatus
  cases hstatus with
  | ok => simp
  | beforeNew _ hi hcon => simp [hi, hcon]
  | frameArguments payload len output cap h => simpa using .inr h
  | framePayload payload len output cap h => simpa using h
  | frameOutput payload len output cap h => simpa using h
  | newArguments buffer capacity h => simpa using .inr h
  | addDataArguments data len h => simpa using .inr h
  | addDataFull data len h => simpa [Instance.usage] using h
  | wireFull length payload crc h => simpa [Instance.usage] using h
  | extractOutput cap => simp

/-- Settles O56: the counters rise by no more than the live bytes and one packet, and `data_len` and every
cursor are at most the capacity. -/
theorem widthsHoldWithCounterRoom : Obligations.WidthsHoldWithCounterRoom := by
  intro w i s t hi hs hfits hop hexec hpackets hcrc hframe
  have hdl := hs.dataLenLe
  obtain ⟨hidx, hmax, hp, hc, hf⟩ := hfits
  refine ⟨?_, ?_, ?_, fun cursor length hcur hlen => by omega⟩
  · obtain ⟨v, u, hv, hu, hchange⟩ := exec_change hi hs hexec
    have husage : s.inst.dataLen - s.inst.offset = v.live.length := observed_usage hv
    rw [husage, observed_crcErrors hv] at hcrc
    rw [husage, observed_frameErrors hv] at hframe
    rw [observed_packetsReceived hv] at hpackets hp
    rw [observed_capacity hv] at hidx hmax
    unfold Instance.fitsWidths
    rw [observed_capacity hu, observed_packetsReceived hu, observed_crcErrors hu,
      observed_frameErrors hu]
    cases hchange with
    | keeps => exact ⟨hidx, hmax, hp, by omega, by omega⟩
    | starts capacity hcap =>
      exact ⟨hop.1, hop.2, Nat.zero_lt_of_lt hp, Nat.zero_lt_of_lt hp, Nat.zero_lt_of_lt hp⟩
    | empties => exact ⟨hidx, hmax, hp, by simp only; omega, by simp only; omega⟩
    | appends => exact ⟨hidx, hmax, hp, by simp only; omega, by simp only; omega⟩
    | waits =>
      exact ⟨hidx, hmax, hp, by simp only [StreamState.skipped]; omega,
        by simp only [StreamState.skipped]; omega⟩
    | emits =>
      exact ⟨hidx, hmax, hpackets, by simp only [StreamState.skipped, StreamState.withPacket]; omega,
        by simp only [StreamState.skipped, StreamState.withPacket]; omega⟩
  · rintro data len rfl
    exact (Nat.add_le_add_right hdl len).trans hop
  · rintro length payload crc rfl
    have hop' := hop
    rw [operandFits, totalSize_eq] at hop'
    exact (Nat.add_le_add_right hdl _).trans hop'

end Sys2Proof.Machine
end

section
/-! SUPPORT. The stream model on frames (43_reconstructor_extract.md R113 to R116): garbage before one, a
damaged one, part of one, and one that arrives in chunks. -/

namespace Sys2Proof.Machine

/-! ### A valid frame, and bytes that are none -/

theorem stream_extractLoop_emits {outputCapacity : Nat} {l p : List Byte}
    (hv : listVerdict outputCapacity l = .emit p) (t : StreamState) :
    StreamState.extractLoop outputCapacity l t =
      (StreamState.withPacket { t with live := l.drop (p.length + 6) }, .emitted p) := by
  cases l with
  | nil => cases hv
  | cons b rest => rw [stream_extractLoop_cons, hv]; rfl

/-- R109: a valid frame at the cursor is emitted, and what follows it stays live. -/
theorem stream_extractLoop_frameOf {outputCapacity : Nat} {p : List Byte} (hmax : p.length ≤ 65535)
    (hcap : p.length ≤ outputCapacity) (after : List Byte) (t : StreamState) :
    StreamState.extractLoop outputCapacity (frameOf p ++ after) t =
      (StreamState.withPacket { t with live := after }, .emitted p) := by
  rw [stream_extractLoop_emits (listVerdict_frameOf hmax hcap), ← frameOf_length, List.drop_left]

/-- Two bytes at the cursor that are not the magic bytes, with a header's length there (R104). -/
theorem stream_extractLoop_badMagic {outputCapacity : Nat} {b0 b1 : Byte} {tail : List Byte}
    (hlen : 2 ≤ tail.length) (h : b0 ≠ Config.magic1 ∨ b1 ≠ Config.magic2) (t : StreamState) :
    StreamState.extractLoop outputCapacity (b0 :: b1 :: tail) t =
      StreamState.extractLoop outputCapacity (b1 :: tail) { t with frameErrors := t.frameErrors + 1 } := by
  match tail, hlen with
  | b2 :: b3 :: tail, _ => rw [stream_extractLoop_cons, listVerdict_badMagic tail h]

theorem noMagicPair_tail {a : Byte} {rest : List Byte} (h : noMagicPair (a :: rest) = true) :
    noMagicPair rest = true := by
  cases rest with
  | nil => rfl
  | cons b rest =>
    rw [noMagicPair, Bool.and_eq_true] at h
    exact h.2

theorem noMagicPair_head {a b : Byte} {rest : List Byte} (h : noMagicPair (a :: b :: rest) = true) :
    a ≠ Config.magic1 ∨ b ≠ Config.magic2 := by
  rw [noMagicPair, Bool.and_eq_true] at h
  by_contra hboth
  simp only [not_or, not_not] at hboth
  simp [hboth] at h

/-- R114: bytes without a magic pair are skipped one by one, up to a `Magic1` with a header's length. -/
theorem stream_extractLoop_garbage {outputCapacity : Nat} {garbage rest : List Byte}
    (hgarbage : noMagicPair garbage = true) (hlen : 3 ≤ rest.length) (t : StreamState) :
    StreamState.extractLoop outputCapacity (garbage ++ Config.magic1 :: rest) t =
      StreamState.extractLoop outputCapacity (Config.magic1 :: rest)
        { t with frameErrors := t.frameErrors + garbage.length } := by
  induction garbage generalizing t with
  | nil => rfl
  | cons a garbage ih =>
    have hskip : StreamState.extractLoop outputCapacity (a :: (garbage ++ Config.magic1 :: rest)) t =
        StreamState.extractLoop outputCapacity (garbage ++ Config.magic1 :: rest)
          { t with frameErrors := t.frameErrors + 1 } := by
      cases garbage with
      | nil => exact stream_extractLoop_badMagic (by omega) (.inr (by decide)) t
      | cons b garbage =>
        have htwo : 2 ≤ (garbage ++ Config.magic1 :: rest).length := by
          rw [List.length_append, List.length_cons]
          omega
        exact stream_extractLoop_badMagic htwo (noMagicPair_head hgarbage) t
    rw [List.cons_append, hskip, ih (noMagicPair_tail hgarbage), List.length_cons, Nat.add_assoc,
      Nat.add_comm 1]

theorem stream_extractLoop_garbage_frameOf {outputCapacity : Nat} {garbage p : List Byte}
    (hgarbage : noMagicPair garbage = true) (hmax : p.length ≤ 65535)
    (hcap : p.length ≤ outputCapacity) (after : List Byte) (t : StreamState) :
    StreamState.extractLoop outputCapacity (garbage ++ (frameOf p ++ after)) t =
      ((t.skipped garbage.length 0 after).withPacket, .emitted p) := by
  have hframe := stream_extractLoop_frameOf hmax hcap after
  rw [frameOf_eq, List.cons_append] at hframe ⊢
  rw [stream_extractLoop_garbage hgarbage (by simp), hframe]
  rfl

/-- R108: a frame whose CRC field is not the CRC of its payload costs one CRC error and one byte. -/
theorem stream_extractLoop_damaged {outputCapacity : Nat} {payload : List Byte} {crc : Word}
    (hmax : payload.length ≤ 65535) (hcap : payload.length ≤ outputCapacity)
    (hcrc : crc16 payload ≠ crc) (after : List Byte) (t : StreamState) :
    StreamState.extractLoop outputCapacity
        (frameBytes (BitVec.ofNat 16 payload.length) payload crc ++ after) t =
      StreamState.extractLoop outputCapacity
        ((frameBytes (BitVec.ofNat 16 payload.length) payload crc).drop 1 ++ after)
        { t with crcErrors := t.crcErrors + 1 } := by
  rw [frameBytes_eq, List.drop_one, List.tail_cons]
  simp only [List.cons_append, List.append_assoc, List.nil_append]
  rw [stream_extractLoop_cons, listVerdict_wholeFrame
    (by rw [be16_hi8_lo8, length_field_toNat hmax]), if_neg (Nat.not_lt.mpr hcap), be16_hi8_lo8,
    if_pos hcrc]

/-- R116: a proper part of a frame is a header or a body not all there. -/
theorem waits_of_part {p part missing : List Byte} (hmax : p.length ≤ 65535)
    (hpart : part ++ missing = frameOf p) (hmissing : missing ≠ []) (outputCapacity : Nat) :
    (listVerdict outputCapacity part).Waits := by
  have hlen := congrArg List.length hpart
  rw [List.length_append, frameOf_length] at hlen
  have hpos := List.length_pos_iff.mpr hmissing
  by_cases hshort : part.length < 4
  · exact .inl (listVerdict_short hshort)
  · obtain ⟨m1, m2, h, l, tail, rfl⟩ : ∃ m1 m2 h l tail, part = m1 :: m2 :: h :: l :: tail :=
      ⟨_, _, _, _, _, eq_four_cons_of_getElem? (List.getElem?_eq_getElem (by omega))
        (List.getElem?_eq_getElem (by omega)) (List.getElem?_eq_getElem (by omega))
        (List.getElem?_eq_getElem (by omega))⟩
    rw [frameOf_eq] at hpart
    simp only [List.cons_append, List.cons.injEq] at hpart
    obtain ⟨rfl, rfl, rfl, rfl, -⟩ := hpart
    refine .inr (listVerdict_bodyIncomplete ?_)
    rw [be16_hi8_lo8, length_field_toNat hmax]
    simp only [List.length_cons] at hlen
    omega

/-! ### Commands that feed and drain -/

section
variable {v : StreamState} (hcon : v.constructed = true)
include hcon

/-- R90: a chunk that fits goes behind the live bytes. -/
theorem stream_receive_appends {c : List Byte} (hc : c ≠ [])
    (hroom : v.live.length + c.length ≤ v.capacity) :
    v.receive (some c) c.length = ({ v with live := v.live ++ c }, .okValue (.num 0)) := by
  rw [StreamState.receive, if_neg (by simp [hcon, hc]), if_neg (Nat.not_lt.mpr hroom),
    inputBytes_some rfl]

theorem stream_exec_extract_waits {outputCapacity : Nat}
    (hwaits : (listVerdict outputCapacity v.live).Waits) :
    v.exec (.extract .present outputCapacity) = (v, .needMoreData) := by
  rw [stream_exec_extract hcon, stream_extractLoop_waits hwaits]

theorem stream_exec_extract_frameOf {outputCapacity : Nat} {p : List Byte}
    (hlive : v.live = frameOf p) (hmax : p.length ≤ 65535) (hcap : p.length ≤ outputCapacity) :
    v.exec (.extract .present outputCapacity) =
      (StreamState.withPacket { v with live := [] }, .emitted p) := by
  rw [stream_exec_extract hcon, hlive, ← List.append_nil (frameOf p),
    stream_extractLoop_frameOf hmax hcap]

end

/-- One `ADD_DATA` of a chunk and one `EXTRACT` (R116). -/
def feed (outputCapacity : Nat) (c : List Byte) : List Instr :=
  [.addData (some c) c.length, .extract .present outputCapacity]

theorem flatMap_feed_cons (outputCapacity : Nat) (c : List Byte) (chunks : List (List Byte)) :
    (c :: chunks).flatMap (feed outputCapacity) =
      .addData (some c) c.length :: .extract .present outputCapacity ::
        chunks.flatMap (feed outputCapacity) := rfl

theorem feed_wf {outputCapacity : Nat} {chunks : List (List Byte)} :
    ∀ i ∈ chunks.flatMap (feed outputCapacity), i.wf = true := by
  intro i hi
  obtain ⟨c, -, hi⟩ := List.mem_flatMap.mp hi
  rcases List.mem_pair.mp hi with rfl | rfl
  · exact beq_self_eq_true _
  · rfl

/-- R113, R116: while chunks are missing each `EXTRACT` waits; behind the last the frame comes out. -/
theorem stream_runScript_feed {v : StreamState} {outputCapacity : Nat} {p : List Byte}
    {chunks : List (List Byte)} {last : List Byte} (hcon : v.constructed = true)
    (hmax : p.length ≤ 65535) (hcap : p.length ≤ outputCapacity) (hroom : p.length + 6 ≤ v.capacity)
    (hne : ∀ c ∈ chunks ++ [last], c ≠ [])
    (hframe : v.live ++ (chunks ++ [last]).flatten = frameOf p) :
    v.runScript ((chunks ++ [last]).flatMap (feed outputCapacity)) =
      (StreamState.withPacket { v with live := [] },
        chunks.flatMap (fun _ => [.okValue (.num 0), .needMoreData]) ++
          [.okValue (.num 0), .emitted p]) := by
  have htotal := congrArg List.length hframe
  rw [List.length_append, frameOf_length] at htotal
  induction chunks generalizing v with
  | nil =>
    simp only [List.nil_append, List.flatten_singleton] at hframe htotal hne
    have hadd := stream_receive_appends hcon (hne last List.mem_cons_self) (by omega)
    have hextract := stream_exec_extract_frameOf (v := { v with live := v.live ++ last }) hcon hframe
      hmax hcap
    rw [List.nil_append, flatMap_feed_cons, StreamState.runScript, StreamState.exec, hadd,
      StreamState.runScript, hextract]
    rfl
  | cons c chunks ih =>
    obtain ⟨hc, hrest⟩ := List.forall_mem_cons.mp hne
    simp only [List.cons_append, List.flatten_cons, List.length_append] at hframe htotal
    rw [← List.append_assoc] at hframe
    have hmissing : (chunks ++ [last]).flatten ≠ [] := by
      have hlast := hrest last (List.mem_append_right _ List.mem_cons_self)
      simp [hlast]
    have hadd := stream_receive_appends hcon hc (by omega)
    have hextract := stream_exec_extract_waits (v := { v with live := v.live ++ c }) hcon
      (waits_of_part hmax hframe hmissing outputCapacity)
    have hind := ih (v := { v with live := v.live ++ c }) hcon hroom hrest hframe
      (by simp only [List.length_append]; omega)
    rw [List.cons_append, flatMap_feed_cons, StreamState.runScript, StreamState.exec, hadd,
      StreamState.runScript, hextract, hind]
    rfl

/-! ### `DRAIN` -/

theorem drainUntil_stops {stop : Result → Bool} {outputCapacity : Nat} {s t : State} {r : Result}
    (hrun : exec (.extract .present outputCapacity) s = .next t) (hr : t.result = some r)
    (hstop : stop r = true) (turns : Nat) :
    drainUntil stop outputCapacity (turns + 1) s = .next (t, [r]) := by
  simp [drainUntil, hrun, hr, hstop]

theorem drainUntil_goes_on {stop : Result → Bool} {outputCapacity turns : Nat} {s t u : State}
    {r : Result} {rs : List Result} (hrun : exec (.extract .present outputCapacity) s = .next t)
    (hr : t.result = some r) (hgo : stop r = false)
    (hrest : drainUntil stop outputCapacity turns t = .next (u, rs)) :
    drainUntil stop outputCapacity (turns + 1) s = .next (u, r :: rs) := by
  simp [drainUntil, hrun, hr, hgo, hrest]

/-- With exactly one frame live, `DRAIN` is its emit and then a wait for more. -/
theorem drain_one_frame {s : State} {v : StreamState} {outputCapacity : Nat} {p : List Byte}
    (hs : s.Inv) (hv : s.inst.observe = .ok v) (hcon : v.constructed = true)
    (hlive : v.live = frameOf p) (hmax : p.length ≤ 65535) (hcap : p.length ≤ outputCapacity) :
    ∃ u : State, drain outputCapacity s = .next (u, [.emitted p, .needMoreData]) ∧
      u.inst.observe = .ok (StreamState.withPacket { v with live := [] }) := by
  obtain ⟨t, hrun, ht, hobs, hres⟩ := exec_refines (i := .extract .present outputCapacity) rfl hs hv
  rw [stream_exec_extract_frameOf hcon hlive hmax hcap] at hobs hres
  obtain ⟨u, hrun', -, hobs', hres'⟩ :=
    exec_refines (i := .extract .present outputCapacity) rfl ht hobs
  rw [stream_exec_extract_waits (v := StreamState.withPacket { v with live := [] }) hcon (.inl rfl)]
    at hobs' hres'
  refine ⟨u, ?_, hobs'⟩
  have husage : s.inst.usage = p.length + 5 + 1 := by rw [observed_usage hv, hlive, frameOf_length]
  rw [drain, husage]
  exact drainUntil_goes_on hrun hres rfl (drainUntil_stops hrun' hres' rfl _)

end Sys2Proof.Machine
end

section
/-! The obligations of 43_reconstructor_extract.md section 4. -/

namespace Sys2Proof.Machine

/-- Settles O43: the loop skips the garbage (`stream_extractLoop_garbage`) and emits the frame. -/
theorem garbageIsSkippedExactly : Obligations.GarbageIsSkippedExactly := by
  intro s cap garbage p after hs hcon hgarbage hmax hcap hl
  obtain ⟨t, hrun, hres, hobs⟩ := exec_extract_spec .present cap hs (observe_of_live hl)
  rw [stream_exec_extract hcon] at hres hobs
  rw [view_live, stream_extractLoop_garbage_frameOf hgarbage hmax hcap] at hres hobs
  exact ⟨t, hrun, hres, observed_live hobs, observed_frameErrors hobs, observed_crcErrors hobs,
    observed_packetsReceived hobs⟩

/-- Settles O44: the CRC differs (`crc16_ne_of_changed_byte`), and the damaged frame's other bytes are
garbage. -/
theorem damagedPayloadIsSkipped : Obligations.DamagedPayloadIsSkipped := by
  intro s cap before rest p after b b' hs hcon hne hmax' hcap' hmax hcap hgarbage hl
  have hlen : (before ++ b :: rest).length = (before ++ b' :: rest).length := by simp
  obtain ⟨t, hrun, hres, hobs⟩ := exec_extract_spec .present cap hs (observe_of_live hl)
  rw [stream_exec_extract hcon] at hres hobs
  rw [hlen] at hmax' hcap' hgarbage hl hres hobs ⊢
  have hloop := fun v => stream_extractLoop_damaged hmax' hcap'
    (crc16_ne_of_changed_byte hne before rest).symm (frameOf p ++ after) v
  rw [view_live, hloop, stream_extractLoop_garbage_frameOf hgarbage hmax hcap] at hres hobs
  refine ⟨t, hrun, hres, observed_live hobs, observed_crcErrors hobs, ?_,
    observed_packetsReceived hobs⟩
  rw [observed_frameErrors hobs]
  simp [StreamState.withPacket, StreamState.skipped, Instance.view]

/-- Settles O45: the verdict on a proper part is to wait (`waits_of_part`). -/
theorem partOfAFrameWaits : Obligations.PartOfAFrameWaits := by
  intro s cap p part missing hs hcon hmax hpart hmissing hl
  obtain ⟨m, hrun, hlive⟩ := extract_waits hs hcon hl (waits_of_part hmax hpart hmissing cap)
  exact ⟨_, congrArg (respond s) hrun, rfl, hlive, rfl, rfl, rfl⟩

/-- Settles O46: the script runs as on the stream model, by induction on the chunks. -/
theorem roundTripInAnyChunks : Obligations.RoundTripInAnyChunks := by
  intro s cap p chunks last hs hcon hl hmax hcap hroom hne hframe
  obtain ⟨t, hrun, -, hobs⟩ := runScript_refines (feed_wf (outputCapacity := cap)
    (chunks := chunks ++ [last])) hs (observe_of_live hl)
  rw [stream_runScript_feed (v := s.inst.view []) hcon hmax hcap hroom hne hframe] at hrun hobs
  exact ⟨t, hrun, observed_live hobs, observed_packetsReceived hobs, observed_crcErrors hobs,
    observed_frameErrors hobs⟩

/-- Settles O47: `FRAME`, then an append into the empty instance, then `drain_one_frame`. -/
theorem sendThenDrainDeliversPayload : Obligations.SendThenDrainDeliversPayload := by
  intro s cap p hs hcon hl hmax hcap hroom
  have hframe := exec_frame_some s hmax (Nat.le_refl (p.length + 6))
  have hs' : State.Inv { s with result := some (.written (frameOf p)) } := hs
  have hadd : (s.inst.view []).receive (some (frameOf p)) (p.length + 6) =
      ({ s.inst.view [] with live := frameOf p }, .okValue (.num 0)) := by
    have hne : frameOf p ≠ [] := by simp [frameOf_eq]
    simpa [frameOf_length, Instance.view] using
      stream_receive_appends (v := s.inst.view []) hcon hne (by simpa [frameOf_length, Instance.view])
  obtain ⟨t, hrun, ht, hobs, hres⟩ :=
    exec_refines (i := .addData (some (frameOf p)) (p.length + 6)) (by simp [Instr.wf, inputLengthOk,
      frameOf_length]) hs' (observe_of_live hl)
  rw [StreamState.exec, hadd] at hobs hres
  obtain ⟨u, hdrain, hobs'⟩ := drain_one_frame ht hobs hcon rfl hmax hcap
  exact ⟨t, u, .written (frameOf p), by simp [scriptSend, runScript, hframe, hrun, hres], rfl, hdrain,
    observed_live hobs', observed_packetsReceived hobs', observed_crcErrors hobs',
    observed_frameErrors hobs'⟩

end Sys2Proof.Machine
end
